-- ==== Sys2Proof/Word.lean ====
section
/-! DEFINITION. The word types of the 80386 TLB test mechanism (00_scope.md R5, R7). -/

namespace Sys2Proof

/-- One byte of the program (30_encoding.md R42). -/
abbrev Byte := BitVec 8

/-- A doubleword: a general register, a test register, the instruction pointer (00_scope.md R5, R7). -/
abbrev Word := BitVec 32

/-- One bit of a register or of a TLB entry. -/
abbrev Bit := BitVec 1

/-- The high-order 20 bits of a linear or physical address (00_scope.md R5, 10_state.md R11). -/
abbrev Page := BitVec 20

/-- One more than the greatest address: pc is a 32-bit register (10_state.md R21). -/
abbrev addressLimit : Nat := 4294967296

end Sys2Proof
end

