-- ==== Sys2Proof/Syntax.lean ====
section
/-! DEFINITION. The five instructions in scope (30_encoding.md R41), their operand, and the fields of their one
instruction format (R42). -/

namespace Sys2Proof

/-- A 32-bit general register, `r32[0]` to `r32[7]` in this order (10_state.md R20). -/
inductive Reg32 where
  | eax | ecx | edx | ebx | esp | ebp | esi | edi
deriving DecidableEq, Repr

/-- One constructor per row of spec/opcode_table.json. Each has one operand, a general register: any of the eight
(40_mov_test_registers.md R58 (a)). -/
inductive Instr where
  /-- `MOV r32,TR6`: store TR6 into general register `k` (R50). -/
  | movR32Tr6 (k : Reg32)
  /-- `MOV r32,TR7`: store TR7 into general register `k` (R51). -/
  | movR32Tr7 (k : Reg32)
  /-- `MOV TR6,r32`: move general register `k` into TR6 and perform the command (R55). -/
  | movTr6R32 (k : Reg32)
  /-- `MOV TR7,r32`: move general register `k` into TR7 (R56). -/
  | movTr7R32 (k : Reg32)
  /-- `MOV CR3,r32`: a write to CR3 (41_tlb_test_operations.md R72). -/
  | movCr3R32 (k : Reg32)
deriving DecidableEq, Repr

/-- The fields of the format `0F-op-ModRM`, the only one in scope (30_encoding.md R42). -/
structure Format where
  /-- Byte 0: the escape. -/
  escape : Byte
  /-- Byte 1: the operation. -/
  op : Byte
  /-- Byte 2, bits 7:6. -/
  mod : BitVec 2
  /-- Byte 2, bits 5:3: the number of the special register. -/
  reg : BitVec 3
  /-- Byte 2, bits 2:0: the number of the general register. -/
  rm : BitVec 3
deriving DecidableEq, Repr

end Sys2Proof
end

