-- ==== Sys2Proof/WellFormed.lean ====
section
/-! DEFINITION. When three bytes, read as the fields of the format `0F-op-ModRM`, are an instruction in scope
(30_encoding.md R42). One check per field; the r/m field needs none, since every value names a general register. -/

namespace Sys2Proof

/-- Byte 0 is the escape 0x0F. -/
def Format.escapeOk (f : Format) : Bool := f.escape == 0x0F#8

/-- Byte 1 is a move from a test register, to a test register, or to a control register. -/
def Format.opOk (f : Format) : Bool := f.op == 0x24#8 || f.op == 0x26#8 || f.op == 0x22#8

/-- "the documented encodings always have 11b". -/
def Format.modOk (f : Format) : Bool := f.mod == 3#2

/-- The reg field names TR6 or TR7, and with op 0x22 it names CR3. -/
def Format.regOk (f : Format) : Bool :=
  if f.op == 0x22#8 then f.reg == 3#3 else f.reg == 6#3 || f.reg == 7#3

/-- The fields are those of an instruction in scope (30_encoding.md R42, R45). -/
def Format.wellFormed (f : Format) : Bool := f.escapeOk && f.opOk && f.modOk && f.regOk

end Sys2Proof
end

