-- ==== Sys2Proof/Decode.lean ====
section
/-! DEFINITION. The decoder, total on any bytes, then the encoder, both from the table of 30_encoding.md R42 and R44.
Every bit pattern there is `[from general knowledge, not in source]` (93_implementation_defined.md G1, G2, G6): PRESUMED, unsafe,
log 30. -/

namespace Sys2Proof

/-- Why bytes are no instruction. The decoder raises it; safe, since the model then says nothing of the step. -/
inductive DecodeRefusal where
  /-- `NOT_IN_SCOPE`: no row of the table matches (30_encoding.md R45). -/
  | notInScope
deriving DecidableEq, Repr

/-- The general register whose number an r/m field holds (30_encoding.md R42, 10_state.md R20). -/
def Reg32.ofNumber (n : BitVec 3) : Reg32 :=
  match n.toNat with
  | 0 => .eax
  | 1 => .ecx
  | 2 => .edx
  | 3 => .ebx
  | 4 => .esp
  | 5 => .ebp
  | 6 => .esi
  | _ => .edi

/-- The number of a general register in an r/m field (30_encoding.md R42, 10_state.md R20). -/
def Reg32.number : Reg32 → BitVec 3
  | .eax => 0
  | .ecx => 1
  | .edx => 2
  | .ebx => 3
  | .esp => 4
  | .ebp => 5
  | .esi => 6
  | .edi => 7

/-- The fields of three instruction bytes in address order (30_encoding.md R42). -/
def splitFormat (b0 b1 b2 : Byte) : Format :=
  { escape := b0, op := b1, mod := b2.extractLsb' 6 2, reg := b2.extractLsb' 3 3, rm := b2.extractLsb' 0 3 }

/-- The three bytes that hold the fields, in address order (30_encoding.md R42). -/
def Format.bytes (f : Format) : List Byte := [f.escape, f.op, f.mod ++ f.reg ++ f.rm]

/-- The instruction the fields name: op says which side is the destination, reg which special register, r/m which
general register (30_encoding.md R43). Everything else is refused (R45). -/
def Format.instr (f : Format) : Except DecodeRefusal Instr :=
  if f.escape = 0x0F#8 ∧ f.mod = 3#2 then
    if f.op = 0x24#8 ∧ f.reg = 6#3 then .ok (.movR32Tr6 (Reg32.ofNumber f.rm))
    else if f.op = 0x24#8 ∧ f.reg = 7#3 then .ok (.movR32Tr7 (Reg32.ofNumber f.rm))
    else if f.op = 0x26#8 ∧ f.reg = 6#3 then .ok (.movTr6R32 (Reg32.ofNumber f.rm))
    else if f.op = 0x26#8 ∧ f.reg = 7#3 then .ok (.movTr7R32 (Reg32.ofNumber f.rm))
    else if f.op = 0x22#8 ∧ f.reg = 3#3 then .ok (.movCr3R32 (Reg32.ofNumber f.rm))
    else .error .notInScope
  else .error .notInScope

/-- The instruction at the head of a byte sequence and the bytes after it; every sequence that begins with no
instruction in scope is refused (30_encoding.md R45, R46). -/
def decode : List Byte → Except DecodeRefusal (Instr × List Byte)
  | b0 :: b1 :: b2 :: rest =>
    match (splitFormat b0 b1 b2).instr with
    | .ok i => .ok (i, rest)
    | .error r => .error r
  | _ => .error .notInScope

/-- The fields of an instruction's encoding (30_encoding.md R42, R44). -/
def Instr.format : Instr → Format
  | .movR32Tr6 k => { escape := 0x0F, op := 0x24, mod := 3, reg := 6, rm := k.number }
  | .movR32Tr7 k => { escape := 0x0F, op := 0x24, mod := 3, reg := 7, rm := k.number }
  | .movTr6R32 k => { escape := 0x0F, op := 0x26, mod := 3, reg := 6, rm := k.number }
  | .movTr7R32 k => { escape := 0x0F, op := 0x26, mod := 3, reg := 7, rm := k.number }
  | .movCr3R32 k => { escape := 0x0F, op := 0x22, mod := 3, reg := 3, rm := k.number }

/-- The bytes of an instruction, in address order (30_encoding.md R44). -/
def encode (i : Instr) : List Byte := i.format.bytes

/-- The three bytes of a table word: spec/opcode_table.json numbers the bits of a row as
`byte0 << 16 | byte1 << 8 | byte2` (30_encoding.md R44), of which the low `nbits` bits are given. Log 31. -/
def tableBytes (nbits w : Nat) : List Byte :=
  let v := w % 2 ^ nbits
  [BitVec.ofNat 8 (v / 65536), BitVec.ofNat 8 (v / 256), BitVec.ofNat 8 v]

/-- The instruction the decoder reads from the bytes of a table word, and none where it refuses. -/
def decodeTableWord (nbits w : Nat) : Option Instr :=
  match decode (tableBytes nbits w) with
  | .ok (i, _) => some i
  | .error _ => none

end Sys2Proof
end

