-- ==== Sys2Proof/Config.lean ====
section
/-! DEFINITION. What the spec leaves open: the parameter TLB_INDEX and the free values, each an opaque constant, so that
nothing can be proved of its value and a claim holds whatever it is. -/

namespace Sys2Proof

/-- `TLB_INDEX : 20-bit value -> 0..7`, the entry of a block that is allocated to a linear address
(00_scope.md R6 (a), 41_tlb_test_operations.md R77). OPEN in the spec (decision D2).
DEDUCED that it is a function of the address alone: unsafe if the chip's choice depends on anything else. Log 3. -/
opaque Config.tlbIndex : Page → Fin 8

/-- `draw_w()` of 00_scope.md R8: the `n`-th free value of the run, at width `w`. A step reads it at the counter
`State.draws` and advances the counter, so that different occurrences are different values. Safe. Log 2. -/
opaque Config.draw (w n : Nat) : BitVec w

/-- The value TR6 holds after reset, "one draw at reset" (10_state.md R27, decision D16).
DESIGN CHOICE: unsafe if the chip's unwritten register does not read back the same value twice. Log 4. -/
opaque Config.resetTr6 : Word

/-- The value TR7 holds after reset, "one draw at reset" (10_state.md R27, decision D16).
DESIGN CHOICE: unsafe if the chip's unwritten register does not read back the same value twice. Log 4. -/
opaque Config.resetTr7 : Word

end Sys2Proof
end

