-- ==== Sys2Proof/Machine/State.lean ====
section
/-! DEFINITION. The state the spec gives the machine (10_state.md), the reasons a step stops, and the machine after
reset. -/

namespace Sys2Proof.Machine

/-- The faults. The spec names one exception and no entry to it, so raising it ends the run
(60_exceptions.md R80, R85; log 22). -/
inductive Fault where
  /-- The general protection exception with its error code, `GP(0)` (60_exceptions.md R80, R81). Raised by each of the
  five instructions when mode is protected and CPL is not 0, before any other check. Safe: a faulted run claims nothing
  of what the handler does. -/
  | generalProtection (errorCode : Nat)
deriving DecidableEq, Repr

/-- The refusals: the model gives the step no meaning, and nothing can be proved of the run (00_scope.md R8). All are safe. -/
inductive Refusal where
  /-- An instruction without a meaning: raised by no arm of exec now. Safe. -/
  | notModelled (mnemonic : String)
  /-- `NOT_IN_SCOPE`: the bytes at pc match no row of the opcode table. Raised by step (30_encoding.md R45). Safe. -/
  | notInScope
  /-- `RESERVED_BIT_SET`: a reserved position of the value moved into TR6 or TR7 is 1. Raised by MOV TR6,r32 and
  MOV TR7,r32 (10_state.md R17 (a)). Safe. -/
  | reservedBitSet
  /-- `PAGING_ON`: PG is 1. Raised by MOV TR6,r32 and MOV CR3,r32 (41_tlb_test_operations.md R61). Safe. -/
  | pagingOn
  /-- `WRITE_WITH_HT_0`: a TLB write with bit 4 of TR7 at 0. Raised by MOV TR6,r32 (41_tlb_test_operations.md R62). Safe. -/
  | writeWithHt0
  /-- `DUPLICATE_TAG`: a TLB write that would make two tags equal. Raised by MOV TR6,r32
  (41_tlb_test_operations.md R66). Safe. -/
  | duplicateTag
  /-- The instruction or the pc after it would cross 2^32. Raised by step and by every instruction that would complete
  there (10_state.md R21). Safe. -/
  | pcWrap
  /-- No program byte was placed at an address of the fetch. Raised by step (70_reset_and_hazards.md R98, log 35). Safe. -/
  | noProgramByte
deriving DecidableEq, Repr

/-- The eight general registers, `r32[0]` to `r32[7]` in this order (10_state.md R20). -/
structure Regs where
  eax : Word
  ecx : Word
  edx : Word
  ebx : Word
  esp : Word
  ebp : Word
  esi : Word
  edi : Word
deriving DecidableEq, Repr

/-- The six status flags (10_state.md R22). -/
structure Flags where
  OF : Bit
  SF : Bit
  ZF : Bit
  AF : Bit
  PF : Bit
  CF : Bit
deriving DecidableEq, Repr

/-- The mode, and in protected mode the current privilege level (10_state.md R23). Virtual 8086 mode is protected mode
at level 3 (40_mov_test_registers.md R53, log 29). -/
inductive Mode where
  | realAddress
  | protectedAt (cpl : Fin 4)
deriving DecidableEq, Repr

/-- One TLB entry: the tag (LA, V, D, U, W), the data (PA), and the spec's flag `init`, true once the entry has been
assigned values (10_state.md R11, R12). -/
structure TlbEntry where
  init : Bool
  la : Page
  v : Bit
  d : Bit
  u : Bit
  w : Bit
  pa : Page
deriving DecidableEq, Repr

/-- The TLB: four blocks of eight entries, `TLB[b][i]` (10_state.md R10). -/
structure Tlb where
  blocks : Vector (Vector TlbEntry 8) 4
deriving DecidableEq, Repr

/-- The program bytes: address and byte, addresses strictly rising and below 2^32; an unlisted address holds no byte. -/
abbrev Memory := List Host.Cell

/-- The state of the machine (10_state.md R10 to R25). -/
structure State where
  /-- `r32[0..7]` (R20). -/
  regs : Regs
  /-- The instruction pointer EIP (R21). -/
  pc : Word
  /-- OF, SF, ZF, AF, PF, CF (R22). -/
  flags : Flags
  /-- The mode and the privilege level (R23). -/
  mode : Mode
  /-- PG of CR0 (R18). -/
  pg : Bool
  /-- The test command register (R14, R15). Its reserved positions hold no state and are 0 here (R17, log 11). -/
  tr6 : Word
  /-- The test data register (R14, R16). Its reserved positions hold no state and are 0 here (R17, log 11). -/
  tr7 : Word
  /-- The TLB array (R10). -/
  tlb : Tlb
  /-- MODEL: the program bytes, a parameter of the run that no instruction changes (R24, 20_memory.md R40; log 1). -/
  prog : Memory
  /-- MODEL: how many free values the run has used (00_scope.md R8; log 2). -/
  draws : Nat
deriving DecidableEq, Repr

/-- An entry that has not been assigned values: V is 0 and the other fields hold no value (10_state.md R12, R26). The
zeros in them are placeholders that no meaning reads: DESIGN CHOICE, log 9. -/
def TlbEntry.unassigned : TlbEntry :=
  { init := false, la := 0, v := 0, d := 0, u := 0, w := 0, pa := 0 }

/-- The machine right after reset. From the spec: all 32 entries unassigned with V = 0 (10_state.md R26, log 10), TR6 and
TR7 one draw each (R27, log 4). R28 gives the rest no value: pc, mode, PG and the flags are PRESUMED (logs 5, 6, 8), the
general registers a DESIGN CHOICE (log 7). The program bytes come from outside (log 1). -/
def State.reset : State :=
  { regs := { eax := 0, ecx := 0, edx := 0, ebx := 0, esp := 0, ebp := 0, esi := 0, edi := 0 }
    pc := 0x0000FFF0
    flags := { OF := 0, SF := 0, ZF := 0, AF := 0, PF := 0, CF := 0 }
    mode := .realAddress
    pg := false
    tr6 := Config.resetTr6 &&& 0xFFFFFFE1#32
    tr7 := Config.resetTr7 &&& 0xFFFFF01C#32
    tlb := { blocks := Vector.replicate 4 (Vector.replicate 8 TlbEntry.unassigned) }
    prog := []
    draws := 0 }

end Sys2Proof.Machine
end

