-- ==== Sys2Proof/Machine/Ops.lean ====
section
/-! DEFINITION. The shared operations: bit fields of a doubleword, the program bytes and the fetch, free values, the
privilege check, the general protection exception. There is no return from an exception in the spec
(60_exceptions.md R86), so none stands beside it. -/

namespace Sys2Proof.Machine

/-! Bit fields (00_scope.md R7). -/

/-- `v[lo+w-1 : lo]`. -/
def field (v : Word) (lo w : Nat) : BitVec w := v.extractLsb' lo w

/-- `v[lo+w-1 : lo] <- x`: `v` with that field replaced. -/
def setField (v : Word) (lo : Nat) {w : Nat} (x : BitVec w) : Word :=
  (v &&& ~~~((BitVec.allOnes w).setWidth 32 <<< lo)) ||| (x.setWidth 32 <<< lo)

/-! The program bytes (10_state.md R24, 20_memory.md R32). -/

/-- The byte at an address, and none where no byte was placed. -/
def Memory.read : Memory → Nat → Option Byte
  | [], _ => none
  | (b, x) :: m, a => if a = b then some x else Memory.read m a

/-- Places a byte, keeping the addresses strictly rising. -/
def Memory.write : Memory → Nat → Byte → Memory
  | [], a, x => [(a, x)]
  | (b, y) :: m, a, x =>
    if a < b then (a, x) :: (b, y) :: m
    else if a = b then (a, x) :: m
    else (b, y) :: Memory.write m a x

/-- Places the bytes at consecutive increasing addresses (20_memory.md R32). -/
def Memory.writeBytes (m : Memory) (a : Nat) : List Byte → Memory
  | [] => m
  | x :: xs => Memory.writeBytes (Memory.write m a x) (a + 1) xs

/-- The addresses of a list rise strictly from `low` and stay below 2^32. -/
def Memory.rising (low : Nat) : Memory → Bool
  | [] => true
  | (a, _) :: m => decide (low ≤ a) && decide (a < addressLimit) && Memory.rising (a + 1) m

/-- The canonical form: strictly rising addresses of 32 bits. An unlisted address reads as no byte, so no entry can
equal it. -/
def Memory.wf (m : Memory) : Bool := Memory.rising 0 m

/-! The fetch (30_encoding.md R46, 20_memory.md R32, R40). -/

/-- The three bytes at pc. Bytes that would cross 2^32 are refused (10_state.md R21), and so is an address at which no
program byte was placed (70_reset_and_hazards.md R98, log 35). -/
def fetch (s : State) : Except Refusal (List Byte) :=
  if s.pc.toNat + 3 ≤ addressLimit then
    match Memory.read s.prog s.pc.toNat, Memory.read s.prog (s.pc.toNat + 1), Memory.read s.prog (s.pc.toNat + 2) with
    | some b0, some b1, some b2 => .ok [b0, b1, b2]
    | _, _, _ => .error .noProgramByte
  else .error .pcWrap

/-! Free values (00_scope.md R8). -/

/-- The free value at width `w` that stands `j` places ahead in the run: `draw_w()`. -/
def State.free (s : State) (w j : Nat) : BitVec w := Config.draw w (s.draws + j)

/-- The next `n` free values have been used. -/
def State.useDraws (s : State) (n : Nat) : State := { s with draws := s.draws + n }

/-! Privilege and the one exception (40_mov_test_registers.md R52, 60_exceptions.md R80). -/

/-- Real-address mode, or privilege level 0 of protected mode (60_exceptions.md R88). -/
def Mode.privileged : Mode → Bool
  | .realAddress => true
  | .protectedAt cpl => cpl == 0

/-- `raise GP(0)`: the run ends in `Fault(GP)` with no effect of the instruction (60_exceptions.md R80, R81, R85; log 22).
The state after it is the state before it: pc still holds the instruction's address. -/
def raiseGp0 : Host.Outcome State Fault Refusal := .fault (.generalProtection 0)

/-! The instruction pointer. -/

/-- The state with another pc. -/
def State.setPc (s : State) (a : Word) : State := { s with pc := a }

/-- `pc <- pc + 3`; the wrap at 2^32 is refused (10_state.md R21, log 25). -/
def advance (s : State) : Host.Outcome State Fault Refusal :=
  if s.pc.toNat + 3 < addressLimit then .next (s.setPc (s.pc + 3)) else .refused .pcWrap

end Sys2Proof.Machine
end

