-- ==== Sys2Proof/Machine/Flags.lean ====
section
/-! DEFINITION. The six status flags, and how an instruction in scope completes. -/

namespace Sys2Proof.Machine

/-- Six free values, one for each flag, the first at place `n` of the run (10_state.md R22). -/
def Flags.drawn (n : Nat) : Flags :=
  { OF := Config.draw 1 n, SF := Config.draw 1 (n + 1), ZF := Config.draw 1 (n + 2)
    AF := Config.draw 1 (n + 3), PF := Config.draw 1 (n + 4), CF := Config.draw 1 (n + 5) }

/-- `OF,SF,ZF,AF,PF,CF <- draw_1() each` (40_mov_test_registers.md R54, log 26). -/
def State.drawFlags (s : State) : State := { s with flags := Flags.drawn s.draws, draws := s.draws + 6 }

/-- The end of every instruction in scope that raised nothing: the flags become free and pc moves on
(40_mov_test_registers.md R57 (7)). -/
def complete (s : State) : Host.Outcome State Fault Refusal := advance s.drawFlags

/-- The end of an instruction that performed a command: the instruction completes with the state the command leaves, or is
refused for the command's reason (40_mov_test_registers.md R57 (6), (7)). -/
def completeCommand : Except Refusal State → Host.Outcome State Fault Refusal
  | .ok t => complete t
  | .error r => .refused r

end Sys2Proof.Machine
end

