-- ==== Sys2Proof/Machine/Operands.lean ====
section
/-! DEFINITION. The operand forms: the general registers (10_state.md R20), the test registers and their fields
(R14 to R17). -/

namespace Sys2Proof.Machine

/-! The general registers. None is hard-wired, and all 32 bits move (10_state.md R20, 40_mov_test_registers.md R58). -/

/-- `r32[k]`. -/
def Regs.get (r : Regs) : Reg32 → Word
  | .eax => r.eax
  | .ecx => r.ecx
  | .edx => r.edx
  | .ebx => r.ebx
  | .esp => r.esp
  | .ebp => r.ebp
  | .esi => r.esi
  | .edi => r.edi

/-- `r32[k] <- x`. -/
def Regs.set (r : Regs) (k : Reg32) (x : Word) : Regs :=
  match k with
  | .eax => { r with eax := x }
  | .ecx => { r with ecx := x }
  | .edx => { r with edx := x }
  | .ebx => { r with ebx := x }
  | .esp => { r with esp := x }
  | .ebp => { r with ebp := x }
  | .esi => { r with esi := x }
  | .edi => { r with edi := x }

/-- `r32[k] <- x`. -/
def State.writeReg (s : State) (k : Reg32) (x : Word) : State := { s with regs := s.regs.set k x }

/-! TR6, the test command register (10_state.md R15). -/

/-- TR6 bits 31:12, LINEAR ADDRESS. -/
def tr6La (v : Word) : Page := field v 12 20

/-- TR6 bit 11, V. -/
def tr6V (v : Word) : Bit := field v 11 1

/-- TR6 bit 10, D. -/
def tr6D (v : Word) : Bit := field v 10 1

/-- TR6 bit 9, D#. -/
def tr6Dn (v : Word) : Bit := field v 9 1

/-- TR6 bit 8, U. -/
def tr6U (v : Word) : Bit := field v 8 1

/-- TR6 bit 7, U#. -/
def tr6Un (v : Word) : Bit := field v 7 1

/-- TR6 bit 6, W (90_conflicts.md C2). -/
def tr6W (v : Word) : Bit := field v 6 1

/-- TR6 bit 5, W#. -/
def tr6Wn (v : Word) : Bit := field v 5 1

/-- TR6 bits 4:1, reserved (R17). -/
def tr6Reserved (v : Word) : BitVec 4 := field v 1 4

/-- TR6 bit 0, the command bit C: 0 is a TLB write, 1 a TLB lookup. -/
def tr6C (v : Word) : Bit := field v 0 1

/-! TR7, the test data register (10_state.md R16). -/

/-- TR7 bits 31:12, PHYSICAL ADDRESS. -/
def tr7Pa (v : Word) : Page := field v 12 20

/-- TR7 bits 11:5, reserved (R17). -/
def tr7ReservedHigh (v : Word) : BitVec 7 := field v 5 7

/-- TR7 bit 4, HT. -/
def tr7Ht (v : Word) : Bit := field v 4 1

/-- TR7 bits 3:2, REP. -/
def tr7Rep (v : Word) : BitVec 2 := field v 2 2

/-- TR7 bits 1:0, reserved (R17). -/
def tr7ReservedLow (v : Word) : BitVec 2 := field v 0 2

/-- The value has a 1 in no reserved position of TR6 (R17 (a)). -/
def tr6Writable (v : Word) : Bool := tr6Reserved v == 0

/-- The value has a 1 in no reserved position of TR7 (R17 (a)). -/
def tr7Writable (v : Word) : Bool := tr7ReservedHigh v == 0 && tr7ReservedLow v == 0

/-- What a read of TR6 gives: the register, with a fresh free value in the reserved positions (R17 (b)). -/
def State.readTr6 (s : State) : Word := setField s.tr6 1 (s.free 4 0)

/-- What a read of TR7 gives: the register, with fresh free values in the reserved positions (R17 (b)). -/
def State.readTr7 (s : State) : Word := setField (setField s.tr7 5 (s.free 7 0)) 0 (s.free 2 1)

/-- `TR6 <- v`. -/
def State.setTr6 (s : State) (v : Word) : State := { s with tr6 := v }

/-- `TR7 <- v`. -/
def State.setTr7 (s : State) (v : Word) : State := { s with tr7 := v }

end Sys2Proof.Machine
end

