-- ==== Sys2Proof/Machine/Tlb.lean ====
section
/-! DEFINITION. The TLB array, the TLB write command, the TLB lookup command, and the clearing of the valid bits
(41_tlb_test_operations.md). -/

namespace Sys2Proof.Machine

/-! The array (10_state.md R10, R13). -/

/-- A location: entry `entry` of block `block`. -/
structure Loc where
  block : Fin 4
  entry : Fin 8
deriving DecidableEq, Repr

/-- All 32 locations. -/
def allLocs : List Loc :=
  [0, 1, 2, 3].flatMap fun b => [0, 1, 2, 3, 4, 5, 6, 7].map fun i => Loc.mk b i

/-- `TLB[b][i]`. -/
def Tlb.get (t : Tlb) (l : Loc) : TlbEntry := (t.blocks[l.block])[l.entry]

/-- `TLB[b][i] <- e`. -/
def Tlb.set (t : Tlb) (l : Loc) (e : TlbEntry) : Tlb :=
  { blocks := t.blocks.set l.block ((t.blocks[l.block]).set l.entry e) }

/-- The block of eight entries given one by one. -/
def blockOfEntries (f : Fin 8 → TlbEntry) : Vector TlbEntry 8 := #v[f 0, f 1, f 2, f 3, f 4, f 5, f 6, f 7]

/-- The array of 32 entries given one by one. -/
def Tlb.ofEntries (f : Loc → TlbEntry) : Tlb :=
  { blocks := #v[blockOfEntries fun i => f ⟨0, i⟩, blockOfEntries fun i => f ⟨1, i⟩,
      blockOfEntries fun i => f ⟨2, i⟩, blockOfEntries fun i => f ⟨3, i⟩] }

/-- The block that a REP value names: value `n` is block `n` (10_state.md R13, log 33). -/
def repBlock (r : BitVec 2) : Fin 4 := ⟨r.toNat, r.isLt⟩

/-- The REP value that names a block (10_state.md R13, log 33). -/
def blockRep (b : Fin 4) : BitVec 2 := BitVec.ofNat 2 b.val

/-- The two entries have equal 24-bit tags (LA, V, D, U, W) (10_state.md R11). -/
def TlbEntry.sameTag (e f : TlbEntry) : Bool :=
  e.la == f.la && e.v == f.v && e.d == f.d && e.u == f.u && e.w == f.w

/-- The state with another TLB. -/
def State.setTlb (s : State) (t : Tlb) : State := { s with tlb := t }

/-! Table 10-1, the pairs (X, X#) for X in D, U, W (41_tlb_test_operations.md R64). -/

/-- A pair is defined exactly when X# is the complement of X. -/
def pairDefined (x xn : Bit) : Bool := x != xn

/-- The bit value a pair stands for: X when the pair is defined, and otherwise the free value. -/
def pairValue (x xn free : Bit) : Bit := if pairDefined x xn then x else free

/-- The three pairs of a TR6 value are defined. -/
def pairsDefined (v : Word) : Bool :=
  pairDefined (tr6D v) (tr6Dn v) && pairDefined (tr6U v) (tr6Un v) && pairDefined (tr6W v) (tr6Wn v)

/-! The TLB write command (41_tlb_test_operations.md R62, R63, R66, R75, R77). -/

/-- The location a TLB write sets: the block REP names, and the entry allocated to the linear address (R63, R77). -/
def writeLoc (tr6 tr7 : Word) : Loc :=
  { block := repBlock (tr7Rep tr7), entry := Config.tlbIndex (tr6La tr6) }

/-- The entry a TLB write stores; an attribute bit whose pair is undefined takes a free value (R63, R75, log 13). -/
def State.newEntry (s : State) : TlbEntry :=
  { init := true
    la := tr6La s.tr6
    v := tr6V s.tr6
    d := pairValue (tr6D s.tr6) (tr6Dn s.tr6) (s.free 1 0)
    u := pairValue (tr6U s.tr6) (tr6Un s.tr6) (s.free 1 1)
    w := pairValue (tr6W s.tr6) (tr6Wn s.tr6) (s.free 1 2)
    pa := tr7Pa s.tr7 }

/-- Some other location holds an initialised entry with the tag of `e` (R66, log 15). -/
def Tlb.hasDuplicate (t : Tlb) (at' : Loc) (e : TlbEntry) : Bool :=
  allLocs.any fun l =>
    (t.get l).init && (t.get l).sameTag e && !(l.block == at'.block && l.entry == at'.entry)

/-- `TLB_write()` with the value in TR6 (R63). It leaves TR6 and TR7 as they are (R65, log 19). -/
def tlbWrite (s : State) : Except Refusal State :=
  if tr7Ht s.tr7 = 1 then
    if s.tlb.hasDuplicate (writeLoc s.tr6 s.tr7) s.newEntry then .error .duplicateTag
    else .ok ((s.setTlb (s.tlb.set (writeLoc s.tr6 s.tr7) s.newEntry)).useDraws 3)
  else .error .writeWithHt0

/-! The TLB lookup command (41_tlb_test_operations.md R67 to R76). -/

/-- The entry matches a lookup with the value `v`: it is initialised, and its linear address, valid bit and attribute
bits are those asked for (R76). -/
def TlbEntry.matchesTag (e : TlbEntry) (v : Word) : Bool :=
  e.init && e.la == tr6La v && e.v == tr6V v && e.d == tr6D v && e.u == tr6U v && e.w == tr6W v

/-- What a lookup finds. -/
inductive LookupResult where
  /-- Exactly one entry matches (R68). -/
  | hit (l : Loc)
  /-- No entry matches (R70). -/
  | miss
  /-- `result_any()`: every result is a free value (R69, R73, R74). -/
  | any
deriving DecidableEq, Repr

/-- Some entry has not been assigned values. -/
def Tlb.hasUninit (t : Tlb) : Bool := allLocs.any fun l => !(t.get l).init

/-- The set M of matching locations (R67). -/
def Tlb.matching (t : Tlb) (v : Word) : List Loc := allLocs.filter fun l => (t.get l).matchesTag v

/-- One match is a hit, none is a miss, and two or more are undefined (R67, R68, R70, R73). -/
def resultOfMatches : List Loc → LookupResult
  | [] => .miss
  | [l] => .hit l
  | _ => .any

/-- The result of a lookup with the value `v`, by cases in the order of R67. -/
def Tlb.lookup (t : Tlb) (v : Word) : LookupResult :=
  if pairsDefined v then
    if tr6V v = 0 ∧ t.hasUninit = true then .any else resultOfMatches (t.matching v)
  else .any

/-- TR6 bits 11:5 set from the matching entry, each attribute bit with its complement (R68). -/
def tr6FromEntry (v : Word) (e : TlbEntry) : Word :=
  setField (setField (setField (setField (setField (setField (setField v 11 e.v) 10 e.d) 9 (~~~e.d)) 8 e.u) 7 (~~~e.u))
    6 e.w) 5 (~~~e.w)

/-- The physical address, HT and REP fields of TR7 replaced. -/
def tr7WithResult (v : Word) (pa : Page) (ht : Bit) (rep : BitVec 2) : Word :=
  setField (setField (setField v 12 pa) 4 ht) 2 rep

/-- A hit at `l` (R68). -/
def lookupHit (s : State) (l : Loc) : State :=
  (s.setTr7 (tr7WithResult s.tr7 (s.tlb.get l).pa 1 (blockRep l.block))).setTr6 (tr6FromEntry s.tr6 (s.tlb.get l))

/-- A miss: HT is 0; the physical address, REP and TR6 bits 11:5 are free (R70, log 18). -/
def lookupMiss (s : State) : State :=
  ((s.setTr7 (tr7WithResult s.tr7 (s.free 20 0) 0 (s.free 2 1))).setTr6 (setField s.tr6 5 (s.free 7 2))).useDraws 3

/-- `result_any()`: HT, the physical address, REP and TR6 bits 11:5 are free (R67, logs 14, 16, 17). -/
def lookupAny (s : State) : State :=
  ((s.setTr7 (tr7WithResult s.tr7 (s.free 20 0) (s.free 1 1) (s.free 2 2))).setTr6
    (setField s.tr6 5 (s.free 7 3))).useDraws 4

/-- `TLB_lookup()` with the value in TR6 (R67). It changes no entry (R71, log 19). -/
def tlbLookup (s : State) : State :=
  match s.tlb.lookup s.tr6 with
  | .hit l => lookupHit s l
  | .miss => lookupMiss s
  | .any => lookupAny s

/-- The command that the value just moved into TR6 selects: C = 0 writes, C = 1 looks up (R60). -/
def tlbCommand (s : State) : Except Refusal State :=
  if tr6C s.tr6 = 0 then tlbWrite s else .ok (tlbLookup s)

/-! The write to CR3 (41_tlb_test_operations.md R72). -/

/-- The entry with its valid bit 0 and everything else kept. -/
def TlbEntry.clearValid (e : TlbEntry) : TlbEntry := { e with v := 0 }

/-- "All valid bits can be cleared by writing to CR3." -/
def Tlb.clearValid (t : Tlb) : Tlb := Tlb.ofEntries fun l => (t.get l).clearValid

end Sys2Proof.Machine
end

