-- ==== Sys2Proof/Machine/MovControl.lean ====
section
/-! DEFINITION. The write to CR3 (41_tlb_test_operations.md R72). -/

namespace Sys2Proof.Machine

/-- `MOV CR3,r32` (R72): the valid bit of all 32 entries becomes 0. The value of register `k` is not recorded
(10_state.md R19, log 20), so `k` is not read. -/
def execMovCr3R32 (_k : Reg32) (s : State) : Host.Outcome State Fault Refusal :=
  if s.mode.privileged then
    if s.pg then .refused .pagingOn else complete (s.setTlb s.tlb.clearValid)
  else raiseGp0

end Sys2Proof.Machine
end

