-- ==== Sys2Proof/Machine/MovTestRegisters.lean ====
section
/-! DEFINITION. The four MOV instructions that read and write TR6 and TR7 (40_mov_test_registers.md). The checks stand in
the order of R57 (log 32). -/

namespace Sys2Proof.Machine

/-- `MOV r32,TR6` (R50). -/
def execMovR32Tr6 (k : Reg32) (s : State) : Host.Outcome State Fault Refusal :=
  if s.mode.privileged then complete ((s.writeReg k s.readTr6).useDraws 1) else raiseGp0

/-- `MOV r32,TR7` (R51). -/
def execMovR32Tr7 (k : Reg32) (s : State) : Host.Outcome State Fault Refusal :=
  if s.mode.privileged then complete ((s.writeReg k s.readTr7).useDraws 2) else raiseGp0

/-- `MOV TR6,r32` (R55): the register transfer and the command it causes, in one step. -/
def execMovTr6R32 (k : Reg32) (s : State) : Host.Outcome State Fault Refusal :=
  if s.mode.privileged then
    if tr6Writable (s.regs.get k) then
      if s.pg then .refused .pagingOn
      else completeCommand (tlbCommand (s.setTr6 (s.regs.get k)))
    else .refused .reservedBitSet
  else raiseGp0

/-- `MOV TR7,r32` (R56). It performs no command and does not ask for PG = 0. -/
def execMovTr7R32 (k : Reg32) (s : State) : Host.Outcome State Fault Refusal :=
  if s.mode.privileged then
    if tr7Writable (s.regs.get k) then complete (s.setTr7 (s.regs.get k)) else .refused .reservedBitSet
  else raiseGp0

end Sys2Proof.Machine
end

