-- ==== Sys2Proof/Machine/Dispatch.lean ====
section
/-! DEFINITION. One arm per instruction. -/

namespace Sys2Proof.Machine

-- The effect of one decoded instruction (30_encoding.md R44).
def exec (i : Instr) (s : State) : Host.Outcome State Fault Refusal :=
  match i with
  | .movR32Tr6 k => Sys2Proof.Machine.execMovR32Tr6 k s
  | .movR32Tr7 k => Sys2Proof.Machine.execMovR32Tr7 k s
  | .movTr6R32 k => Sys2Proof.Machine.execMovTr6R32 k s
  | .movTr7R32 k => Sys2Proof.Machine.execMovTr7R32 k s
  | .movCr3R32 k => Sys2Proof.Machine.execMovCr3R32 k s

end Sys2Proof.Machine
end

