-- ==== Sys2Proof/Machine/Step.lean ====
section
/-! DEFINITION. One step: fetch, decode, execute (40_mov_test_registers.md R57). Each instruction moves pc itself, so the
step adds nothing around exec. -/

namespace Sys2Proof.Machine

/-- One step of the machine. -/
def step (s : State) : Host.Outcome State Fault Refusal :=
  match fetch s with
  | .error r => .refused r
  | .ok bytes =>
    match decode bytes with
    | .ok (i, _) => exec i s
    | .error .notInScope => .refused .notInScope

/-- `s` with the bytes of a table word placed at pc, where the next step fetches. It stands for the loading of a program
from outside (70_reset_and_hazards.md R91, log 1). Where three bytes at pc would cross 2^32 there is no place to put them
(10_state.md R21). -/
def State.withFetchWord (s : State) (nbits w : Nat) : State :=
  if s.pc.toNat + 3 ≤ addressLimit then
    { s with prog := Memory.writeBytes s.prog s.pc.toNat (tableBytes nbits w) }
  else s

end Sys2Proof.Machine
end

