-- ==== Sys2Proof/Safety.lean ====
section
/-! DEFINITION. What a run is and when it is a safe one (70_reset_and_hazards.md R91, R98), and the invariants of the
machine in the terms claims use. Every claim about a run has the premise NO_INTERRUPTION (60_exceptions.md R84, log 23): the
chip executes nothing between two instructions of the program, or what it executes leaves TR6, TR7, the TLB, PG, the mode and the
privilege level as it found them. -/

namespace Sys2Proof.Machine

/-! Runs. -/

/-- The bytes of a program, its instructions three bytes apart (R98). -/
def programBytes (p : List Instr) : List Byte := p.flatMap encode

/-- The launch of a program at `base`: its bytes placed there, pc at the first (R91, R98). -/
def State.launch (s : State) (base : Word) (p : List Instr) : State :=
  { s with pc := base, prog := Memory.writeBytes s.prog base.toNat (programBytes p) }

/-- The outcome of a launched program: one step for each of its instructions (R98). -/
def runProgram (s : State) (base : Word) (p : List Instr) : Host.Outcome State Fault Refusal :=
  Sys2Proof.core.run p.length (s.launch base p)

/-- The run ends successfully in `t`: no fault, no refusal, and pc at the end of the program (R98). -/
def RunSucceeds (s : State) (base : Word) (p : List Instr) (t : State) : Prop :=
  runProgram s base p = .next t ∧ t.pc.toNat = base.toNat + 3 * p.length

/-- The instruction may run here: the mode and privilege level allow it (60_exceptions.md R88), and pc has a next value
below 2^32 (10_state.md R21). -/
abbrev CanRun (s : State) : Prop := s.mode.privileged = true ∧ s.pc.toNat + 3 < addressLimit

/-- `MOV TR6,r32` may perform its command here: it may run, PG is 0 and the value moved has no reserved bit
(40_mov_test_registers.md R57, 41_tlb_test_operations.md R61, 10_state.md R17). -/
abbrev CanCommand (k : Reg32) (s : State) : Prop :=
  CanRun s ∧ s.pg = false ∧ tr6Writable (s.regs.get k) = true

/-- A lookup with the value `v` is an ordinary one: its pairs are defined, and it does not ask for V = 0 while a tag is
uninitialised (41_tlb_test_operations.md R69, R74). -/
abbrev Tlb.Ordinary (t : Tlb) (v : Word) : Prop :=
  pairsDefined v = true ∧ (tr6V v = 0 → ∀ l, (t.get l).init = true)

/-! Frames: what a next state keeps. -/

/-- The mode, PG and every program byte, which no instruction in scope changes. -/
abbrev SameFixed (s t : State) : Prop :=
  t.mode = s.mode ∧ t.pg = s.pg ∧ ∀ a, Memory.read t.prog a = Memory.read s.prog a

/-- Every general register. -/
abbrev SameRegs (s t : State) : Prop := ∀ j, t.regs.get j = s.regs.get j

/-- Every TLB entry. -/
abbrev SameTlb (s t : State) : Prop := ∀ l, t.tlb.get l = s.tlb.get l

/-- How `t` ends an instruction that began in `s` and used `n` free values before the flags: the six flags are the next
six free values, and pc has moved by 3 (40_mov_test_registers.md R57 (7)). -/
abbrev Completed (s t : State) (n : Nat) : Prop :=
  t.flags = Flags.drawn (s.draws + n) ∧ t.draws = s.draws + n + 6 ∧ t.pc = s.pc + 3

/-! Between two points of a run. -/

/-- The instruction, run in `s`, is a TLB write with V = 1. -/
def IsValidWrite (i : Instr) (s : State) : Prop :=
  ∃ k, i = .movTr6R32 k ∧ tr6C (s.regs.get k) = 0 ∧ tr6V (s.regs.get k) = 1

/-- From the TLB `a` the instructions lead to the TLB `b`, none of them a TLB write with V = 1. Before each of them anything may
happen that leaves the TLB alone (41_tlb_test_operations.md R79). -/
def LeadsWithoutValidWrite : List Instr → Tlb → Tlb → Prop
  | [], a, b => b = a
  | i :: is, a, b =>
    ∃ s t, s.tlb = a ∧ exec i s = .next t ∧ ¬ IsValidWrite i s ∧ LeadsWithoutValidWrite is t.tlb b

/-! Comparing two runs. -/

/-- Two outcomes of the same kind, with equal reasons or related states. -/
def OutcomesRelated (r : State → State → Prop) :
    Host.Outcome State Fault Refusal → Host.Outcome State Fault Refusal → Prop
  | .next s, .next t => r s t
  | .fault f, .fault g => f = g
  | .refused p, .refused q => p = q
  | _, _ => False

/-- The states are equal but for what the fields of unassigned entries hold (10_state.md R12). -/
def SameButUnassigned (s t : State) : Prop :=
  t = { s with tlb := t.tlb } ∧ ∀ l, (t.tlb.get l).init = (s.tlb.get l).init ∧ (t.tlb.get l).v = (s.tlb.get l).v ∧
    ((s.tlb.get l).init = true → t.tlb.get l = s.tlb.get l)

/-- The states are equal but for the reserved positions of TR6 and TR7 (10_state.md R17). -/
def SameButReserved (s t : State) : Prop :=
  t = { s with tr6 := t.tr6, tr7 := t.tr7 } ∧ t.tr6 &&& 0xFFFFFFE1#32 = s.tr6 &&& 0xFFFFFFE1#32 ∧
    t.tr7 &&& 0xFFFFF01C#32 = s.tr7 &&& 0xFFFFF01C#32

/-- The first state is in real-address mode, and the second differs from it only by standing at privilege level 0 of
protected mode. -/
def RealAndLevel0 (s t : State) : Prop :=
  s.mode = .realAddress ∧ t = { s with mode := .protectedAt 0 }

/-! Invariants. Each is kept by every step from any state that has it. -/

/-- An entry that has not been assigned values has zero in the valid bit (10_state.md R12). -/
abbrev Tlb.UnassignedInvalid (t : Tlb) : Prop := ∀ l : Loc, (t.get l).init = false → (t.get l).v = 0

/-- Every assigned entry stands at the entry number allocated to its linear address (41_tlb_test_operations.md R77). -/
abbrev Tlb.Placed (t : Tlb) : Prop :=
  ∀ l : Loc, (t.get l).init = true → l.entry = Config.tlbIndex (t.get l).la

/-- No two valid assigned entries have equal tags (41_tlb_test_operations.md R66, R73). -/
abbrev Tlb.ValidTagsDiffer (t : Tlb) : Prop :=
  ∀ l l' : Loc, l ≠ l' → (t.get l).init = true → (t.get l').init = true → (t.get l).v = 1 →
    (t.get l).sameTag (t.get l') = false

/-- The reserved positions of the two registers hold nothing (10_state.md R17). -/
abbrev State.ReservedClear (s : State) : Prop := tr6Writable s.tr6 = true ∧ tr7Writable s.tr7 = true

/-- The invariant of the machine. -/
structure State.Inv (s : State) : Prop where
  progWf : Memory.wf s.prog = true
  unassignedInvalid : s.tlb.UnassignedInvalid
  placed : s.tlb.Placed
  validTagsDiffer : s.tlb.ValidTagsDiffer
  reservedClear : s.ReservedClear

end Sys2Proof.Machine
end

