-- ==== Sys2Proof/Certificates/Slice0/Obligations.lean ====
section
/-! DEFINITION. The statements for the provers. A docstring that names a decision D<n> of 92_eei_decisions.md or a log entry says that
the statement rests on that choice, and not on the source's words. A statement about a free value (`Config.draw`) holds for every
value of it. -/

open Sys2Proof Sys2Proof.Machine

/-! Encoding. All bit patterns are general knowledge of the 80386 (PRESUMED, log 30). -/

/-- Decoding an encoded instruction gives it back, and the bytes after it. -/
def Obligations.DecodeOfEncodeIsTheInstr : Prop :=
  ∀ (i : Instr) (rest : List Byte), decode (encode i ++ rest) = .ok (i, rest)

/-- The bytes an instruction was decoded from are its encoding: each instruction has one encoding. -/
def Obligations.EncodeOfDecodeIsTheBytes : Prop :=
  ∀ (bytes rest : List Byte) (i : Instr), decode bytes = .ok (i, rest) → bytes = encode i ++ rest

/-- Three bytes decode by the match and mask of the opcode table, and are refused exactly when no row matches. Fewer than
three bytes are refused. -/
def Obligations.DecodeFollowsOpcodeTable : Prop :=
  (∀ (b0 b1 b2 : Byte) (rest : List Byte) (k : Reg32),
    let w : BitVec 24 := b0 ++ b1 ++ b2
    let row := fun m : BitVec 24 => w &&& 0xFFFFF8 = m
    let names := w.extractLsb' 0 3 = k.number
    (decode (b0 :: b1 :: b2 :: rest) = .ok (.movR32Tr6 k, rest) ↔ row 0x0F24F0 ∧ names) ∧
    (decode (b0 :: b1 :: b2 :: rest) = .ok (.movR32Tr7 k, rest) ↔ row 0x0F24F8 ∧ names) ∧
    (decode (b0 :: b1 :: b2 :: rest) = .ok (.movTr6R32 k, rest) ↔ row 0x0F26F0 ∧ names) ∧
    (decode (b0 :: b1 :: b2 :: rest) = .ok (.movTr7R32 k, rest) ↔ row 0x0F26F8 ∧ names) ∧
    (decode (b0 :: b1 :: b2 :: rest) = .ok (.movCr3R32 k, rest) ↔ row 0x0F22D8 ∧ names) ∧
    (decode (b0 :: b1 :: b2 :: rest) = .error .notInScope ↔
      ¬ row 0x0F24F0 ∧ ¬ row 0x0F24F8 ∧ ¬ row 0x0F26F0 ∧ ¬ row 0x0F26F8 ∧ ¬ row 0x0F22D8)) ∧
  ∀ bytes : List Byte, bytes.length < 3 → decode bytes = .error .notInScope

/-- The words of vector T18 (95_test_vectors.md) decode, or are refused, as it says. -/
def Obligations.DecodeSampleWords : Prop :=
  decode [0x0F, 0x26, 0xF3] = .ok (.movTr6R32 .ebx, []) ∧ decode [0x0F, 0x26, 0xFB] = .ok (.movTr7R32 .ebx, []) ∧
  decode [0x0F, 0x24, 0xF1] = .ok (.movR32Tr6 .ecx, []) ∧ decode [0x0F, 0x24, 0xFF] = .ok (.movR32Tr7 .edi, []) ∧
  decode [0x0F, 0x22, 0xDC] = .ok (.movCr3R32 .esp, []) ∧ decode [0x0F, 0x26, 0x33] = .error .notInScope ∧
  decode [0x0F, 0x26, 0xD8] = .error .notInScope ∧ decode [0x0F, 0x20, 0xD8] = .error .notInScope ∧
  decode [0x66, 0x0F, 0x26, 0xF3] = .error .notInScope

/-- Three bytes are an instruction exactly when their fields pass every check of WellFormed.lean. -/
def Obligations.DecodeAcceptsExactlyTheWellFormed : Prop :=
  ∀ (b0 b1 b2 : Byte) (rest : List Byte),
    (∃ i, decode (b0 :: b1 :: b2 :: rest) = .ok (i, rest)) ↔ (splitFormat b0 b1 b2).wellFormed = true

/-! The step. -/

/-- When the three bytes at pc decode to an instruction, the step is that instruction's effect, with nothing around it. -/
def Obligations.StepRunsTheDecodedInstr : Prop :=
  ∀ (s : State) (b0 b1 b2 : Byte) (i : Instr), s.pc.toNat + 3 ≤ addressLimit →
    Memory.read s.prog s.pc.toNat = some b0 → Memory.read s.prog (s.pc.toNat + 1) = some b1 →
    Memory.read s.prog (s.pc.toNat + 2) = some b2 → decode [b0, b1, b2] = .ok (i, []) → step s = exec i s

/-- Bytes at pc that match no row of the opcode table are refused, never faulted (decision D26, log 30). -/
def Obligations.StepRefusesBytesOutsideTheTable : Prop :=
  ∀ (s : State) (b0 b1 b2 : Byte), s.pc.toNat + 3 ≤ addressLimit →
    Memory.read s.prog s.pc.toNat = some b0 → Memory.read s.prog (s.pc.toNat + 1) = some b1 →
    Memory.read s.prog (s.pc.toNat + 2) = some b2 →
    (∀ m ∈ [0x0F24F0#24, 0x0F24F8#24, 0x0F26F0#24, 0x0F26F8#24, 0x0F22D8#24], (b0 ++ b1 ++ b2) &&& 0xFFFFF8 ≠ m) →
    step s = .refused .notInScope

/-- The model's own choices (logs 25 and 35): a fetch that would cross 2^32, or that finds no program byte, is refused. -/
def Obligations.StepRefusesWithoutThreeBytes : Prop :=
  ∀ s : State,
    (addressLimit < s.pc.toNat + 3 → step s = .refused .pcWrap) ∧
    (s.pc.toNat + 3 ≤ addressLimit → (∃ j, j < 3 ∧ Memory.read s.prog (s.pc.toNat + j) = none) →
      step s = .refused .noProgramByte)

/-- A table word placed by the loader is what the next fetch reads, and every other program byte stays (the model's own,
log 1). -/
def Obligations.LoadedWordIsFetched : Prop :=
  ∀ (s : State) (nbits w : Nat), s.pc.toNat + 3 ≤ addressLimit →
    fetch (s.withFetchWord nbits w) = .ok (tableBytes nbits w) ∧
    (∀ a, a < s.pc.toNat ∨ s.pc.toNat + 3 ≤ a →
      Memory.read (s.withFetchWord nbits w).prog a = Memory.read s.prog a) ∧
    { s.withFetchWord nbits w with prog := s.prog } = s

/-! Privilege and the general protection exception. -/

/-- Each of the four test-register moves raises the general protection exception in protected mode at any level but 0,
whatever the rest of the state: it answers no next state, so nothing is changed and no command performed (R52). -/
def Obligations.TestRegisterMovesNeedLevelZero : Prop :=
  ∀ (k : Reg32) (s : State) (cpl : Fin 4), s.mode = .protectedAt cpl → cpl ≠ 0 →
    ∀ i ∈ [Instr.movR32Tr6 k, .movR32Tr7 k, .movTr6R32 k, .movTr7R32 k],
      ∃ code, exec i s = .fault (.generalProtection code)

/-- A step of any of the five instructions faults exactly in protected mode at a level other than 0, and only with GP(0)
(decisions D17 and D25, general knowledge G3 and G6, logs 22 and 29). -/
def Obligations.FaultsExactlyWhenUnprivileged : Prop :=
  ∀ (i : Instr) (s : State) (f : Fault),
    exec i s = .fault f ↔ f = .generalProtection 0 ∧ ∃ cpl, s.mode = .protectedAt cpl ∧ cpl ≠ 0

/-- Real-address mode runs every instruction as privilege level 0 of protected mode does (an inference the spec marks as its own
in 40_mov_test_registers.md section 1; log 29). -/
def Obligations.RealModeRunsAsLevelZero : Prop :=
  ∀ (i : Instr) (s t : State), RealAndLevel0 s t → OutcomesRelated RealAndLevel0 (exec i s) (exec i t)

/-! What every instruction does and leaves. -/

/-- No step changes the mode, the privilege level, PG, or a program byte. -/
def Obligations.StepKeepsModePagingAndProgram : Prop :=
  ∀ s t : State, step s = .next t → SameFixed s t

/-- Every step that answers a next state moves pc by exactly 3, without wrapping (decision D21, log 25). -/
def Obligations.StepMovesPcByThree : Prop :=
  ∀ s t : State, step s = .next t → t.pc.toNat = s.pc.toNat + 3

/-- After every completed instruction the six flags are free values that stand at places of the run not used before it, and
the places are used up (general knowledge G4, decision D22, log 26). -/
def Obligations.StepMakesFlagsFresh : Prop :=
  ∀ s t : State, step s = .next t → s.draws + 6 ≤ t.draws ∧ t.flags = Flags.drawn (t.draws - 6)

/-- Which instruction can change which state: a general register only a read of a test register into it; TR6 only MOV TR6;
TR7 only MOV TR7 and a lookup; a TLB entry only the TLB write to it and the write to CR3 (the access summary of 10_state.md
section 6; decision D13, log 19). -/
def Obligations.OnlyTheWritersChangeState : Prop :=
  ∀ (i : Instr) (s t : State), exec i s = .next t →
    (∀ j, t.regs.get j ≠ s.regs.get j → i = .movR32Tr6 j ∨ i = .movR32Tr7 j) ∧
    (t.tr6 ≠ s.tr6 → ∃ k, i = .movTr6R32 k) ∧
    (t.tr7 ≠ s.tr7 → (∃ k, i = .movTr7R32 k) ∨ ∃ k, i = .movTr6R32 k ∧ tr6C (s.regs.get k) = 1) ∧
    (∀ l, t.tlb.get l ≠ s.tlb.get l → (∃ k, i = .movCr3R32 k) ∨
      ∃ k, i = .movTr6R32 k ∧ tr6C (s.regs.get k) = 0 ∧ l = writeLoc (s.regs.get k) s.tr7)

/-! Reading a test register. -/

/-- `MOV r32,TR6`: the register gets TR6 with free values in bits 4:1, and nothing else changes but the flags and pc. The
free reserved bits are decision D5 (log 11), the flags decision D22 (log 26). -/
def Obligations.MovR32Tr6StoresTr6 : Prop :=
  ∀ (k : Reg32) (s : State), CanRun s → ∃ t, exec (.movR32Tr6 k) s = .next t ∧
    (∀ b, (t.regs.get k).getLsbD b =
      if 1 ≤ b ∧ b ≤ 4 then (Config.draw 4 s.draws).getLsbD (b - 1) else s.tr6.getLsbD b) ∧
    (∀ j, j ≠ k → t.regs.get j = s.regs.get j) ∧
    t.tr6 = s.tr6 ∧ t.tr7 = s.tr7 ∧ SameTlb s t ∧ SameFixed s t ∧ Completed s t 1

/-- `MOV r32,TR7`: the register gets TR7 with free values in bits 11:5 and 1:0, and nothing else changes but the flags and
pc. The free reserved bits are decision D5 (log 11), the flags decision D22 (log 26). -/
def Obligations.MovR32Tr7StoresTr7 : Prop :=
  ∀ (k : Reg32) (s : State), CanRun s → ∃ t, exec (.movR32Tr7 k) s = .next t ∧
    (∀ b, (t.regs.get k).getLsbD b =
      if 5 ≤ b ∧ b ≤ 11 then (Config.draw 7 s.draws).getLsbD (b - 5)
      else if b ≤ 1 then (Config.draw 2 (s.draws + 1)).getLsbD b else s.tr7.getLsbD b) ∧
    (∀ j, j ≠ k → t.regs.get j = s.regs.get j) ∧
    t.tr6 = s.tr6 ∧ t.tr7 = s.tr7 ∧ SameTlb s t ∧ SameFixed s t ∧ Completed s t 2

/-- What was moved into TR7, and what a TLB write left in TR6, is read back in every position that is not reserved
(decisions D5 and D13, logs 11 and 19). -/
def Obligations.TestRegistersReadBack : Prop :=
  ∀ (j k : Reg32) (s t u : State),
    (exec (.movTr7R32 k) s = .next t → exec (.movR32Tr7 j) t = .next u →
      u.regs.get j &&& 0xFFFFF01C#32 = s.regs.get k) ∧
    (exec (.movTr6R32 k) s = .next t → tr6C (s.regs.get k) = 0 → exec (.movR32Tr6 j) t = .next u →
      u.regs.get j &&& 0xFFFFFFE1#32 = s.regs.get k)

/-! Writing a test register. -/

/-- The accessors read the fields of TR6 and TR7 where the layouts put them: field hi:lo of a value `x` is `x` divided by 2^lo,
modulo 2^(hi-lo+1). -/
def Obligations.TestRegisterLayout : Prop :=
  ∀ x : Word,
    ((tr6La x).toNat = x.toNat / 4096 ∧ (tr6V x).toNat = x.toNat / 2048 % 2 ∧ (tr6D x).toNat = x.toNat / 1024 % 2 ∧
      (tr6Dn x).toNat = x.toNat / 512 % 2 ∧ (tr6U x).toNat = x.toNat / 256 % 2 ∧ (tr6Un x).toNat = x.toNat / 128 % 2 ∧
      (tr6W x).toNat = x.toNat / 64 % 2 ∧ (tr6Wn x).toNat = x.toNat / 32 % 2 ∧
      (tr6Reserved x).toNat = x.toNat / 2 % 16 ∧ (tr6C x).toNat = x.toNat % 2) ∧
    ((tr7Pa x).toNat = x.toNat / 4096 ∧ (tr7ReservedHigh x).toNat = x.toNat / 32 % 128 ∧
      (tr7Ht x).toNat = x.toNat / 16 % 2 ∧ (tr7Rep x).toNat = x.toNat / 4 % 4 ∧ (tr7ReservedLow x).toNat = x.toNat % 4)

/-- `MOV TR7,r32` with no reserved bit: TR7 gets the register, whatever PG and HT are, and nothing else changes but the
flags and pc (decisions D4, D15, D22, logs 11, 21, 26). -/
def Obligations.MovTr7R32SetsTr7 : Prop :=
  ∀ (k : Reg32) (s : State), CanRun s → (∀ b, b ≤ 1 ∨ (5 ≤ b ∧ b ≤ 11) → (s.regs.get k).getLsbD b = false) →
    ∃ t, exec (.movTr7R32 k) s = .next t ∧ t.tr7 = s.regs.get k ∧
      SameRegs s t ∧ t.tr6 = s.tr6 ∧ SameTlb s t ∧ SameFixed s t ∧ Completed s t 0

/-- A value with a 1 in a reserved position is refused by both moves into a test register, before PG is looked at
(decision D4, log 11; the order is log 32). -/
def Obligations.ReservedBitIsRefused : Prop :=
  ∀ (k : Reg32) (s : State) (b : Nat), s.mode.privileged = true → (s.regs.get k).getLsbD b = true →
    (1 ≤ b ∧ b ≤ 4 → exec (.movTr6R32 k) s = .refused .reservedBitSet) ∧
    (b ≤ 1 ∨ (5 ≤ b ∧ b ≤ 11) → exec (.movTr7R32 k) s = .refused .reservedBitSet)

/-- With PG = 1 the two instructions that touch the TLB are refused (decision D15, log 21). -/
def Obligations.PagingOnIsRefused : Prop :=
  ∀ (k : Reg32) (s : State), s.mode.privileged = true → s.pg = true →
    (tr6Reserved (s.regs.get k) = 0 → exec (.movTr6R32 k) s = .refused .pagingOn) ∧
    exec (.movCr3R32 k) s = .refused .pagingOn

/-! The TLB write command. -/

/-- Bit 0 of the value moved into TR6 selects the command, and the MOV ends with the command's full effect on the TLB and the test
registers in place (R60). -/
def Obligations.CommandBitSelectsTheCommand : Prop :=
  ∀ (k : Reg32) (s : State), CanCommand k s →
    let u := s.setTr6 (s.regs.get k)
    let hasDone := fun r : State => ∃ t, exec (.movTr6R32 k) s = .next t ∧ t.tlb = r.tlb ∧ t.tr6 = r.tr6 ∧ t.tr7 = r.tr7
    (tr6C (s.regs.get k) = 0 → ∀ r, tlbWrite u = .ok r → hasDone r) ∧
    (tr6C (s.regs.get k) = 1 → hasDone (tlbLookup u))

/-- Table 10-1: a pair (X, X#) is defined exactly when X# is the complement of X; a defined pair stands for the value X, and an
undefined one for a free value (decision D7, log 13). The entry that a TLB write sets has these values in D, U and W, the free
values being the next three of the run, and a lookup with defined pairs matches an entry of the same linear address and valid
bit if its bits are these values. -/
def Obligations.BitPairsFollowTheTable : Prop :=
  (∀ x xn f : Bit, (pairDefined x xn = true ↔ x ≠ xn) ∧
    (x ≠ xn → pairValue x xn f = x) ∧ (x = xn → pairValue x xn f = f)) ∧
  (∀ s t : State, tlbWrite s = .ok t →
    let e := t.tlb.get (writeLoc s.tr6 s.tr7)
    e.d = pairValue (tr6D s.tr6) (tr6Dn s.tr6) (Config.draw 1 s.draws) ∧
    e.u = pairValue (tr6U s.tr6) (tr6Un s.tr6) (Config.draw 1 (s.draws + 1)) ∧
    e.w = pairValue (tr6W s.tr6) (tr6Wn s.tr6) (Config.draw 1 (s.draws + 2))) ∧
  ∀ (e : TlbEntry) (v : Word) (f : Bit), pairsDefined v = true →
    (e.matchesTag v = true ↔ e.init = true ∧ e.la = tr6La v ∧ e.v = tr6V v ∧ e.d = pairValue (tr6D v) (tr6Dn v) f ∧
      e.u = pairValue (tr6U v) (tr6Un v) f ∧ e.w = pairValue (tr6W v) (tr6Wn v) f)

/-- `MOV TR6,r32` with C = 0, HT = 1, defined pairs and no other entry with the tag: one entry gets all its fields from TR6
and TR7, and nothing else changes but TR6, the flags and pc. Which entry it is rests on decision D2
(log 3), what a duplicate is on D9 (log 15), and that TR7 is left on D13 (log 19). -/
def Obligations.TlbWriteSetsOneEntry : Prop :=
  ∀ (k : Reg32) (s : State), CanCommand k s →
    let v := s.regs.get k
    let here := writeLoc v s.tr7
    tr6C v = 0 → tr7Ht s.tr7 = 1 → pairsDefined v = true →
    (∀ l, l ≠ here → ¬ ((s.tlb.get l).init = true ∧ (s.tlb.get l).la = tr6La v ∧ (s.tlb.get l).v = tr6V v ∧
      (s.tlb.get l).d = tr6D v ∧ (s.tlb.get l).u = tr6U v ∧ (s.tlb.get l).w = tr6W v)) →
    ∃ t, exec (.movTr6R32 k) s = .next t ∧
      t.tlb.get here = { init := true, la := tr6La v, v := tr6V v, d := tr6D v, u := tr6U v, w := tr6W v,
                         pa := tr7Pa s.tr7 } ∧
      (∀ l, l ≠ here → t.tlb.get l = s.tlb.get l) ∧
      t.tr6 = v ∧ t.tr7 = s.tr7 ∧ SameRegs s t ∧ SameFixed s t ∧ Completed s t 3

/-- A TLB write with undefined pairs: each attribute bit whose pair is undefined takes a free value, and the rest of the write is
as usual; it completes unless another entry has the tag with those values (decisions D7 and D9, logs 13 and 15; D13, log 19). -/
def Obligations.UndefinedPairWritesFreeBit : Prop :=
  ∀ (k : Reg32) (s : State), CanCommand k s →
    let v := s.regs.get k
    let here := writeLoc v s.tr7
    let d := if tr6D v = tr6Dn v then Config.draw 1 s.draws else tr6D v
    let u := if tr6U v = tr6Un v then Config.draw 1 (s.draws + 1) else tr6U v
    let w := if tr6W v = tr6Wn v then Config.draw 1 (s.draws + 2) else tr6W v
    tr6C v = 0 → tr7Ht s.tr7 = 1 →
    (∀ l, l ≠ here → ¬ ((s.tlb.get l).init = true ∧ (s.tlb.get l).la = tr6La v ∧ (s.tlb.get l).v = tr6V v ∧
      (s.tlb.get l).d = d ∧ (s.tlb.get l).u = u ∧ (s.tlb.get l).w = w)) →
    ∃ t, exec (.movTr6R32 k) s = .next t ∧
      t.tlb.get here = { init := true, la := tr6La v, v := tr6V v, d := d, u := u, w := w, pa := tr7Pa s.tr7 } ∧
      (∀ l, l ≠ here → t.tlb.get l = s.tlb.get l) ∧
      t.tr6 = v ∧ t.tr7 = s.tr7 ∧ SameRegs s t ∧ SameFixed s t ∧ Completed s t 3

/-- A TLB write with HT = 0 is refused (decision D6, log 12). -/
def Obligations.WriteWithHtZeroIsRefused : Prop :=
  ∀ (k : Reg32) (s : State), s.mode.privileged = true → s.pg = false → tr6Reserved (s.regs.get k) = 0 →
    tr6C (s.regs.get k) = 0 → tr7Ht s.tr7 = 0 → exec (.movTr6R32 k) s = .refused .writeWithHt0

/-- A TLB write is refused for a duplicate exactly when another location holds an initialised entry with the same 24-bit tag, the bit
of an undefined pair compared at its free value; rewriting the same location is no duplicate (decisions D7 and D9, logs 13 and
15). -/
def Obligations.DuplicateTagIsRefused : Prop :=
  ∀ (k : Reg32) (s : State), CanCommand k s →
    let v := s.regs.get k
    let here := writeLoc v s.tr7
    let d := if tr6D v = tr6Dn v then Config.draw 1 s.draws else tr6D v
    let u := if tr6U v = tr6Un v then Config.draw 1 (s.draws + 1) else tr6U v
    let w := if tr6W v = tr6Wn v then Config.draw 1 (s.draws + 2) else tr6W v
    tr6C v = 0 → tr7Ht s.tr7 = 1 →
    (exec (.movTr6R32 k) s = .refused .duplicateTag ↔
      ∃ l, l ≠ here ∧ (s.tlb.get l).init = true ∧ (s.tlb.get l).la = tr6La v ∧ (s.tlb.get l).v = tr6V v ∧
        (s.tlb.get l).d = d ∧ (s.tlb.get l).u = u ∧ (s.tlb.get l).w = w)

/-- A TLB write never disturbs an entry of another block than the one REP names, and in a well-kept TLB two entries with the
same linear address have the same entry number (inferences from decision D2; logs 3 and 33). -/
def Obligations.WriteStaysInItsBlock : Prop :=
  ∀ (k : Reg32) (s t : State), exec (.movTr6R32 k) s = .next t →
    (∀ l, l.block.val ≠ (tr7Rep s.tr7).toNat → t.tlb.get l = s.tlb.get l) ∧
    (s.tlb.Placed → ∀ l l', (t.tlb.get l).init = true → (t.tlb.get l').init = true →
      (t.tlb.get l).la = (t.tlb.get l').la → l.entry = l'.entry)

/-! The TLB lookup command. -/

/-- The match condition over all 32 entries: linear address, valid bit, and each attribute bit against the value of its
defined pair; an uninitialised entry, whose valid bit is 0, never matches a lookup with V = 1 (R76). -/
def Obligations.MatchComparesTheWholeTag : Prop :=
  ∀ (t : Tlb) (v : Word) (l : Loc), pairsDefined v = true →
    (l ∈ t.matching v ↔ (t.get l).init = true ∧ (t.get l).la = tr6La v ∧ (t.get l).v = tr6V v ∧
      (t.get l).d = ~~~(tr6Dn v) ∧ (t.get l).u = ~~~(tr6Un v) ∧ (t.get l).w = ~~~(tr6Wn v)) ∧
    (t.UnassignedInvalid → tr6V v = 1 → (t.get l).v = tr6V v → (t.get l).init = true)

/-- A hit: exactly one entry matches. HT is 1, the physical address is the entry's, REP is its block (that REP names the block by
its number is decision D3, log 33), and TR6 bits 11:5 are the entry's tag bits with their complements. The last clause, that these
are the bits moved in, is an inference the spec marks as its own, derived from the match condition. -/
def Obligations.LookupHitReadsTheEntry : Prop :=
  ∀ (k : Reg32) (s : State) (l : Loc), CanCommand k s →
    let v := s.regs.get k
    let e := s.tlb.get l
    tr6C v = 1 → s.tlb.Ordinary v → e.matchesTag v = true →
    (∀ l', (s.tlb.get l').matchesTag v = true → l' = l) →
    ∃ t, exec (.movTr6R32 k) s = .next t ∧
      tr7Ht t.tr7 = 1 ∧ tr7Pa t.tr7 = e.pa ∧ (tr7Rep t.tr7).toNat = l.block.val ∧
      tr6V t.tr6 = e.v ∧ tr6D t.tr6 = e.d ∧ tr6Dn t.tr6 = ~~~e.d ∧ tr6U t.tr6 = e.u ∧ tr6Un t.tr6 = ~~~e.u ∧
      tr6W t.tr6 = e.w ∧ tr6Wn t.tr6 = ~~~e.w ∧ field t.tr6 5 7 = field v 5 7

/-- What every lookup leaves, hit, miss or unpredictable: all entries, all general registers, the reserved positions of TR7, and of
TR6 all but bits 11:5 of the value moved in; the flags become free and pc moves on (decisions D13, D21, D22, logs 19, 25, 26). -/
def Obligations.LookupLeavesTheRest : Prop :=
  ∀ (k : Reg32) (s t : State), tr6C (s.regs.get k) = 1 → exec (.movTr6R32 k) s = .next t →
    SameTlb s t ∧ SameRegs s t ∧ SameFixed s t ∧
    tr7ReservedHigh t.tr7 = tr7ReservedHigh s.tr7 ∧ tr7ReservedLow t.tr7 = tr7ReservedLow s.tr7 ∧
    (∀ b, b < 5 ∨ 11 < b → t.tr6.getLsbD b = (s.regs.get k).getLsbD b) ∧
    ∃ n, n ≤ 4 ∧ Completed s t n

/-- A miss: no entry matches. HT is 0; the physical address, REP and TR6 bits 11:5 are free values; TR6 keeps its linear
address, C and reserved positions; nothing else changes but the flags and pc (decisions D12 and D13, logs 18 and 19). -/
def Obligations.LookupMissClearsHt : Prop :=
  ∀ (k : Reg32) (s : State), CanCommand k s →
    let v := s.regs.get k
    tr6C v = 1 → s.tlb.Ordinary v → (∀ l, (s.tlb.get l).matchesTag v = false) →
    ∃ t, exec (.movTr6R32 k) s = .next t ∧
      tr7Ht t.tr7 = 0 ∧ tr7Pa t.tr7 = Config.draw 20 s.draws ∧ tr7Rep t.tr7 = Config.draw 2 (s.draws + 1) ∧
      tr7ReservedHigh t.tr7 = tr7ReservedHigh s.tr7 ∧ tr7ReservedLow t.tr7 = tr7ReservedLow s.tr7 ∧
      (∀ b, t.tr6.getLsbD b =
        if 5 ≤ b ∧ b ≤ 11 then (Config.draw 7 (s.draws + 2)).getLsbD (b - 5) else v.getLsbD b) ∧
      SameTlb s t ∧ SameRegs s t ∧ SameFixed s t ∧ Completed s t 3

/-- A lookup with an undefined pair, with V = 0 while a tag is uninitialised, or with two matches still completes: HT, the
physical address, REP and TR6 bits 11:5 are free values, and no entry changes (decisions D8, D10, D11, D13; logs 14, 16, 17,
19). -/
def Obligations.UnpredictableLookupIsFree : Prop :=
  ∀ (k : Reg32) (s : State), CanCommand k s →
    let v := s.regs.get k
    tr6C v = 1 →
    (tr6D v = tr6Dn v ∨ tr6U v = tr6Un v ∨ tr6W v = tr6Wn v ∨ (tr6V v = 0 ∧ ∃ l, (s.tlb.get l).init = false) ∨
      ∃ l l', l ≠ l' ∧ (s.tlb.get l).matchesTag v = true ∧ (s.tlb.get l').matchesTag v = true) →
    ∃ t, exec (.movTr6R32 k) s = .next t ∧
      tr7Pa t.tr7 = Config.draw 20 s.draws ∧ tr7Ht t.tr7 = Config.draw 1 (s.draws + 1) ∧
      tr7Rep t.tr7 = Config.draw 2 (s.draws + 2) ∧
      tr7ReservedHigh t.tr7 = tr7ReservedHigh s.tr7 ∧ tr7ReservedLow t.tr7 = tr7ReservedLow s.tr7 ∧
      (∀ b, t.tr6.getLsbD b =
        if 5 ≤ b ∧ b ≤ 11 then (Config.draw 7 (s.draws + 3)).getLsbD (b - 5) else v.getLsbD b) ∧
      SameTlb s t ∧ SameRegs s t ∧ SameFixed s t ∧ Completed s t 4

/-- The previous contents of TR7 are not an input of a lookup: from two states that differ only in TR7, a lookup gives the same
outcome but for reserved positions. -/
def Obligations.LookupDoesNotReadTr7 : Prop :=
  ∀ (k : Reg32) (s : State) (x : Word), tr6C (s.regs.get k) = 1 →
    OutcomesRelated SameButReserved (exec (.movTr6R32 k) s) (exec (.movTr6R32 k) (s.setTr7 x))

/-- In a state with the invariant a lookup with V = 1 and defined pairs completes, and HT tells whether an entry matches: two
matches cannot arise there (an inference the spec marks as its own in 41_tlb_test_operations.md section 4; logs 15 and 16). -/
def Obligations.ValidLookupHitsOrMisses : Prop :=
  ∀ (k : Reg32) (s : State), s.Inv → CanCommand k s →
    let v := s.regs.get k
    tr6C v = 1 → pairsDefined v = true → tr6V v = 1 →
    ∃ t, exec (.movTr6R32 k) s = .next t ∧ (tr7Ht t.tr7 = 1 ↔ ∃ l, (s.tlb.get l).matchesTag v = true)

/-! The write to CR3. -/

/-- `MOV CR3,r32` with PG = 0: the valid bit of all 32 entries becomes 0, every other field of every entry is kept, and
nothing else changes but the flags and pc (decision D14, log 20). -/
def Obligations.MovCr3ClearsEveryValidBit : Prop :=
  ∀ (k : Reg32) (s : State), CanRun s → s.pg = false → ∃ t, exec (.movCr3R32 k) s = .next t ∧
    (∀ l, (t.tlb.get l).v = 0 ∧ (t.tlb.get l).init = (s.tlb.get l).init ∧ (t.tlb.get l).la = (s.tlb.get l).la ∧
      (t.tlb.get l).d = (s.tlb.get l).d ∧ (t.tlb.get l).u = (s.tlb.get l).u ∧ (t.tlb.get l).w = (s.tlb.get l).w ∧
      (t.tlb.get l).pa = (s.tlb.get l).pa) ∧
    SameRegs s t ∧ t.tr6 = s.tr6 ∧ t.tr7 = s.tr7 ∧ SameFixed s t ∧ Completed s t 0

/-! Laws over several instructions. -/

/-- Write, then look up: the lookup for the tag just written hits and reports the physical address and block of the write. Between
the two, any instructions may run that leave the TLB alone (an inference the spec marks as its own in
41_tlb_test_operations.md section 6; decisions D9 and D13, logs 15 and 19). -/
def Obligations.WriteThenLookupHits : Prop :=
  ∀ (j k : Reg32) (s t u : State),
    let v := s.regs.get k
    tr6C v = 0 → pairsDefined v = true → exec (.movTr6R32 k) s = .next t →
    CanRun u → u.pg = false → u.tlb = t.tlb → u.regs.get j = v ||| 1 →
    (tr6V v = 1 ∨ ∀ l, (u.tlb.get l).init = true) →
    ∃ r, exec (.movTr6R32 j) u = .next r ∧ tr7Ht r.tr7 = 1 ∧ tr7Pa r.tr7 = tr7Pa s.tr7 ∧
      tr7Rep r.tr7 = tr7Rep s.tr7 ∧ field r.tr6 5 7 = field v 5 7

/-- After a write to CR3 every lookup with V = 1 and defined pairs misses until the next TLB write with V = 1, whatever else runs in
between: other instructions in any number, TLB writes with V = 0 among them (an inference the spec marks as its own in
41_tlb_test_operations.md section 6; decisions D13 and D14, logs 19 and 20). -/
def Obligations.LookupAfterCr3Misses : Prop :=
  ∀ (j k : Reg32) (s t u : State) (is : List Instr), exec (.movCr3R32 k) s = .next t →
    LeadsWithoutValidWrite is t.tlb u.tlb →
    CanCommand j u → tr6C (u.regs.get j) = 1 → pairsDefined (u.regs.get j) = true → tr6V (u.regs.get j) = 1 →
    ∃ r, exec (.movTr6R32 j) u = .next r ∧ tr7Ht r.tr7 = 0

/-- Once no entry is valid, none becomes valid but by a TLB write with V = 1 (decision D13, log 19). -/
def Obligations.NoEntryBecomesValidUnwritten : Prop :=
  ∀ (i : Instr) (s t : State), (∀ l, (s.tlb.get l).v = 0) → exec i s = .next t →
    (∃ l, (t.tlb.get l).v = 1) →
    ∃ k, i = .movTr6R32 k ∧ tr6C (s.regs.get k) = 0 ∧ tr6V (s.regs.get k) = 1

/-- After a lookup that missed, a TLB write is refused until TR7 is loaded again (an inference the spec marks as its own in
70_reset_and_hazards.md section 2; decisions D6 and D12, logs 12 and 18). -/
def Obligations.WriteAfterMissNeedsTr7Reloaded : Prop :=
  ∀ (j k : Reg32) (s t u : State), exec (.movTr6R32 k) s = .next t →
    tr6C (s.regs.get k) = 1 → s.tlb.Ordinary (s.regs.get k) →
    (∀ l, (s.tlb.get l).matchesTag (s.regs.get k) = false) →
    u.tr7 = t.tr7 → u.mode.privileged = true → u.pg = false → tr6Writable (u.regs.get j) = true →
    tr6C (u.regs.get j) = 0 → exec (.movTr6R32 j) u = .refused .writeWithHt0

/-! Reset and invariants. -/

/-- After reset every one of the 32 entries is uninitialised with valid bit 0 (an inference the spec marks as its own in
10_state.md section 7; log 10). -/
def Obligations.ResetLeavesEveryEntryInvalid : Prop :=
  ∀ l : Loc, (State.reset.tlb.get l).init = false ∧ (State.reset.tlb.get l).v = 0

/-- After reset TR6 and TR7 hold one free value each in the positions that are not reserved (decision D16, log 4). -/
def Obligations.ResetLeavesTestRegistersFree : Prop :=
  (∀ b, State.reset.tr6.getLsbD b = (!decide (1 ≤ b ∧ b ≤ 4) && Config.resetTr6.getLsbD b)) ∧
  ∀ b, State.reset.tr7.getLsbD b = (!decide (b ≤ 1 ∨ (5 ≤ b ∧ b ≤ 11)) && Config.resetTr7.getLsbD b)

/-- The machine after reset has the invariant (decision D16, logs 4, 9, 10). -/
def Obligations.ResetHasTheInv : Prop := State.reset.Inv

/-- Every step from a state with the invariant leads to one: the program bytes stay in canonical form, an unassigned entry
has valid bit 0, an assigned entry stands where its linear address puts it, valid tags differ, and the reserved positions of
TR6 and TR7 stay empty (decisions D2, D4, D9, logs 3, 11, 15). -/
def Obligations.StepKeepsTheInv : Prop :=
  ∀ s t : State, s.Inv → step s = .next t → t.Inv

/-! Noninterference. -/

/-- The fields of unassigned entries hold no value: two states that differ only there take the same step and differ only there
after it (decision D24, logs 9 and 28). -/
def Obligations.UnassignedFieldsAreNotRead : Prop :=
  ∀ s t : State, SameButUnassigned s t → OutcomesRelated SameButUnassigned (step s) (step t)

/-- The reserved positions of TR6 and TR7 are not state: two states that differ only there take the same step and differ at most
there after it (decisions D4 and D5, log 11). -/
def Obligations.ReservedPositionsAreNotRead : Prop :=
  ∀ s t : State, SameButReserved s t → OutcomesRelated SameButReserved (step s) (step t)

/-! A TLB without a valid entry, and the end of the addresses. -/

/-- While no entry is valid, a lookup with V = 1 and defined pairs misses (an inference the spec marks as its own in
41_tlb_test_operations.md section 6; decision D12, log 18). -/
def Obligations.LookupMissesWhileNoEntryIsValid : Prop :=
  ∀ (j : Reg32) (u : State), (∀ l, (u.tlb.get l).v = 0) →
    CanCommand j u → tr6C (u.regs.get j) = 1 → pairsDefined (u.regs.get j) = true → tr6V (u.regs.get j) = 1 →
    ∃ r, exec (.movTr6R32 j) u = .next r ∧ tr7Ht r.tr7 = 0

/-- An instruction that would complete at another pc is refused where pc has no next value below 2^32, the instruction that ends
exactly there, at 0xFFFFFFFD, included (decision D21, log 25). -/
def Obligations.EndingAtTheLimitIsRefused : Prop :=
  ∀ (i : Instr) (s t : State) (a : Word), exec i (s.setPc a) = .next t → addressLimit ≤ s.pc.toNat + 3 →
    exec i s = .refused .pcWrap
end

