-- ==== Sys2Proof/Laws/Decode.lean ====
section
/-! SUPPORT. What the decoder and the encoder do, field by field. -/

namespace Sys2Proof

/-- A register's number names it. -/
@[simp] theorem Reg32.ofNumber_number (k : Reg32) : Reg32.ofNumber k.number = k := by cases k <;> rfl

/-- Every number is that of the register it names. -/
@[simp] theorem Reg32.number_ofNumber (n : BitVec 3) : (Reg32.ofNumber n).number = n := by revert n; decide

/-- The fields of the bytes of a format are that format. -/
theorem splitFormat_bytes (m : BitVec 2) (r k : BitVec 3) (e o : Byte) :
    splitFormat e o (m ++ r ++ k) = { escape := e, op := o, mod := m, reg := r, rm := k } := by
  revert m r k
  simp only [splitFormat, Format.mk.injEq, true_and]
  decide

/-- The bytes of the fields of three bytes are those bytes. -/
theorem bytes_splitFormat (b0 b1 b2 : Byte) : (splitFormat b0 b1 b2).bytes = [b0, b1, b2] := by
  simp only [splitFormat, Format.bytes, List.cons.injEq, true_and, and_true]
  revert b2; decide

/-- The fields of an instruction's encoding name it. -/
@[simp] theorem Instr.format_instr (i : Instr) : i.format.instr = .ok i := by
  cases i <;> rename_i k <;> cases k <;> rfl

end Sys2Proof
end

