-- ==== Sys2Proof/Laws/State.lean ====
section
/-! SUPPORT. One lemma per field per update of the state, so that no proof unfolds a record update. -/

namespace Sys2Proof.Machine

/-! `State.writeReg`. -/

@[simp] theorem State.writeReg_regs (s : State) (k : Reg32) (x : Word) : (s.writeReg k x).regs = s.regs.set k x := rfl
@[simp] theorem State.writeReg_pc (s : State) (k : Reg32) (x : Word) : (s.writeReg k x).pc = s.pc := rfl
@[simp] theorem State.writeReg_flags (s : State) (k : Reg32) (x : Word) : (s.writeReg k x).flags = s.flags := rfl
@[simp] theorem State.writeReg_mode (s : State) (k : Reg32) (x : Word) : (s.writeReg k x).mode = s.mode := rfl
@[simp] theorem State.writeReg_pg (s : State) (k : Reg32) (x : Word) : (s.writeReg k x).pg = s.pg := rfl
@[simp] theorem State.writeReg_tr6 (s : State) (k : Reg32) (x : Word) : (s.writeReg k x).tr6 = s.tr6 := rfl
@[simp] theorem State.writeReg_tr7 (s : State) (k : Reg32) (x : Word) : (s.writeReg k x).tr7 = s.tr7 := rfl
@[simp] theorem State.writeReg_tlb (s : State) (k : Reg32) (x : Word) : (s.writeReg k x).tlb = s.tlb := rfl
@[simp] theorem State.writeReg_prog (s : State) (k : Reg32) (x : Word) : (s.writeReg k x).prog = s.prog := rfl
@[simp] theorem State.writeReg_draws (s : State) (k : Reg32) (x : Word) : (s.writeReg k x).draws = s.draws := rfl

/-! `State.setTr6`. -/

@[simp] theorem State.setTr6_regs (s : State) (v : Word) : (s.setTr6 v).regs = s.regs := rfl
@[simp] theorem State.setTr6_pc (s : State) (v : Word) : (s.setTr6 v).pc = s.pc := rfl
@[simp] theorem State.setTr6_flags (s : State) (v : Word) : (s.setTr6 v).flags = s.flags := rfl
@[simp] theorem State.setTr6_mode (s : State) (v : Word) : (s.setTr6 v).mode = s.mode := rfl
@[simp] theorem State.setTr6_pg (s : State) (v : Word) : (s.setTr6 v).pg = s.pg := rfl
@[simp] theorem State.setTr6_tr6 (s : State) (v : Word) : (s.setTr6 v).tr6 = v := rfl
@[simp] theorem State.setTr6_tr7 (s : State) (v : Word) : (s.setTr6 v).tr7 = s.tr7 := rfl
@[simp] theorem State.setTr6_tlb (s : State) (v : Word) : (s.setTr6 v).tlb = s.tlb := rfl
@[simp] theorem State.setTr6_prog (s : State) (v : Word) : (s.setTr6 v).prog = s.prog := rfl
@[simp] theorem State.setTr6_draws (s : State) (v : Word) : (s.setTr6 v).draws = s.draws := rfl

/-! `State.setTr7`. -/

@[simp] theorem State.setTr7_regs (s : State) (v : Word) : (s.setTr7 v).regs = s.regs := rfl
@[simp] theorem State.setTr7_pc (s : State) (v : Word) : (s.setTr7 v).pc = s.pc := rfl
@[simp] theorem State.setTr7_flags (s : State) (v : Word) : (s.setTr7 v).flags = s.flags := rfl
@[simp] theorem State.setTr7_mode (s : State) (v : Word) : (s.setTr7 v).mode = s.mode := rfl
@[simp] theorem State.setTr7_pg (s : State) (v : Word) : (s.setTr7 v).pg = s.pg := rfl
@[simp] theorem State.setTr7_tr6 (s : State) (v : Word) : (s.setTr7 v).tr6 = s.tr6 := rfl
@[simp] theorem State.setTr7_tr7 (s : State) (v : Word) : (s.setTr7 v).tr7 = v := rfl
@[simp] theorem State.setTr7_tlb (s : State) (v : Word) : (s.setTr7 v).tlb = s.tlb := rfl
@[simp] theorem State.setTr7_prog (s : State) (v : Word) : (s.setTr7 v).prog = s.prog := rfl
@[simp] theorem State.setTr7_draws (s : State) (v : Word) : (s.setTr7 v).draws = s.draws := rfl

/-! `State.setTlb`. -/

@[simp] theorem State.setTlb_regs (s : State) (t : Tlb) : (s.setTlb t).regs = s.regs := rfl
@[simp] theorem State.setTlb_pc (s : State) (t : Tlb) : (s.setTlb t).pc = s.pc := rfl
@[simp] theorem State.setTlb_flags (s : State) (t : Tlb) : (s.setTlb t).flags = s.flags := rfl
@[simp] theorem State.setTlb_mode (s : State) (t : Tlb) : (s.setTlb t).mode = s.mode := rfl
@[simp] theorem State.setTlb_pg (s : State) (t : Tlb) : (s.setTlb t).pg = s.pg := rfl
@[simp] theorem State.setTlb_tr6 (s : State) (t : Tlb) : (s.setTlb t).tr6 = s.tr6 := rfl
@[simp] theorem State.setTlb_tr7 (s : State) (t : Tlb) : (s.setTlb t).tr7 = s.tr7 := rfl
@[simp] theorem State.setTlb_tlb (s : State) (t : Tlb) : (s.setTlb t).tlb = t := rfl
@[simp] theorem State.setTlb_prog (s : State) (t : Tlb) : (s.setTlb t).prog = s.prog := rfl
@[simp] theorem State.setTlb_draws (s : State) (t : Tlb) : (s.setTlb t).draws = s.draws := rfl

/-! `State.setPc`. -/

@[simp] theorem State.setPc_regs (s : State) (a : Word) : (s.setPc a).regs = s.regs := rfl
@[simp] theorem State.setPc_pc (s : State) (a : Word) : (s.setPc a).pc = a := rfl
@[simp] theorem State.setPc_flags (s : State) (a : Word) : (s.setPc a).flags = s.flags := rfl
@[simp] theorem State.setPc_mode (s : State) (a : Word) : (s.setPc a).mode = s.mode := rfl
@[simp] theorem State.setPc_pg (s : State) (a : Word) : (s.setPc a).pg = s.pg := rfl
@[simp] theorem State.setPc_tr6 (s : State) (a : Word) : (s.setPc a).tr6 = s.tr6 := rfl
@[simp] theorem State.setPc_tr7 (s : State) (a : Word) : (s.setPc a).tr7 = s.tr7 := rfl
@[simp] theorem State.setPc_tlb (s : State) (a : Word) : (s.setPc a).tlb = s.tlb := rfl
@[simp] theorem State.setPc_prog (s : State) (a : Word) : (s.setPc a).prog = s.prog := rfl
@[simp] theorem State.setPc_draws (s : State) (a : Word) : (s.setPc a).draws = s.draws := rfl

/-! `State.useDraws`. -/

@[simp] theorem State.useDraws_regs (s : State) (n : Nat) : (s.useDraws n).regs = s.regs := rfl
@[simp] theorem State.useDraws_pc (s : State) (n : Nat) : (s.useDraws n).pc = s.pc := rfl
@[simp] theorem State.useDraws_flags (s : State) (n : Nat) : (s.useDraws n).flags = s.flags := rfl
@[simp] theorem State.useDraws_mode (s : State) (n : Nat) : (s.useDraws n).mode = s.mode := rfl
@[simp] theorem State.useDraws_pg (s : State) (n : Nat) : (s.useDraws n).pg = s.pg := rfl
@[simp] theorem State.useDraws_tr6 (s : State) (n : Nat) : (s.useDraws n).tr6 = s.tr6 := rfl
@[simp] theorem State.useDraws_tr7 (s : State) (n : Nat) : (s.useDraws n).tr7 = s.tr7 := rfl
@[simp] theorem State.useDraws_tlb (s : State) (n : Nat) : (s.useDraws n).tlb = s.tlb := rfl
@[simp] theorem State.useDraws_prog (s : State) (n : Nat) : (s.useDraws n).prog = s.prog := rfl
@[simp] theorem State.useDraws_draws (s : State) (n : Nat) : (s.useDraws n).draws = s.draws + n := rfl

/-! `State.drawFlags`. -/

@[simp] theorem State.drawFlags_regs (s : State) : s.drawFlags.regs = s.regs := rfl
@[simp] theorem State.drawFlags_pc (s : State) : s.drawFlags.pc = s.pc := rfl
@[simp] theorem State.drawFlags_flags (s : State) : s.drawFlags.flags = Flags.drawn s.draws := rfl
@[simp] theorem State.drawFlags_mode (s : State) : s.drawFlags.mode = s.mode := rfl
@[simp] theorem State.drawFlags_pg (s : State) : s.drawFlags.pg = s.pg := rfl
@[simp] theorem State.drawFlags_tr6 (s : State) : s.drawFlags.tr6 = s.tr6 := rfl
@[simp] theorem State.drawFlags_tr7 (s : State) : s.drawFlags.tr7 = s.tr7 := rfl
@[simp] theorem State.drawFlags_tlb (s : State) : s.drawFlags.tlb = s.tlb := rfl
@[simp] theorem State.drawFlags_prog (s : State) : s.drawFlags.prog = s.prog := rfl
@[simp] theorem State.drawFlags_draws (s : State) : s.drawFlags.draws = s.draws + 6 := rfl

/-! Free values further on. -/

@[simp] theorem State.free_useDraws (s : State) (n w j : Nat) : (s.useDraws n).free w j = s.free w (n + j) := by
  simp [State.free, Nat.add_assoc]

end Sys2Proof.Machine
end

