-- ==== Sys2Proof/Laws/Ops.lean ====
section
/-! SUPPORT. What the shared operations of Machine/Ops.lean, Machine/Operands.lean and Machine/Flags.lean do. -/

namespace Sys2Proof.Machine

/-! Bit fields. -/

/-- A field is its bits. -/
theorem field_getLsbD (v : Word) (lo w i : Nat) : (field v lo w).getLsbD i = (decide (i < w) && v.getLsbD (lo + i)) := by
  simp [field]

/-- Replacing a field replaces its bits and no other. -/
theorem setField_getLsbD (v : Word) (lo : Nat) {w : Nat} (x : BitVec w) (h : lo + w ≤ 32) (i : Nat) :
    (setField v lo x).getLsbD i = if lo ≤ i ∧ i < lo + w then x.getLsbD (i - lo) else v.getLsbD i := by
  unfold setField
  by_cases h32 : i < 32
  · by_cases hlo : lo ≤ i
    · by_cases hw : i - lo < w
      · have : i < lo + w := by omega
        have h2 : i - lo < 32 := by omega
        have h3 : ¬ i < lo := by omega
        simp [*]
      · have : ¬ i < lo + w := by omega
        simp [*, BitVec.getLsbD_of_ge x (i - lo) (by omega)]
    · have h3 : i < lo := by omega
      have h4 : ¬ (lo ≤ i ∧ i < lo + w) := by omega
      rw [if_neg h4]
      simp [h3, h32]
  · have h2 : ¬ (lo ≤ i ∧ i < lo + w) := by omega
    rw [if_neg h2, BitVec.getLsbD_of_ge _ _ (by omega), BitVec.getLsbD_of_ge _ _ (by omega)]

/-- The field just replaced reads as the new value. -/
theorem field_setField_self (v : Word) (lo : Nat) {w : Nat} (x : BitVec w) (h : lo + w ≤ 32) :
    field (setField v lo x) lo w = x := by
  apply BitVec.eq_of_getLsbD_eq
  intro i hi
  rw [field_getLsbD, setField_getLsbD _ _ _ h]
  simp [hi]

/-- A field that does not overlap the one replaced reads as before. -/
theorem field_setField_ne (v : Word) (lo lo' : Nat) {w : Nat} (w' : Nat) (x : BitVec w) (h : lo + w ≤ 32)
    (hne : lo' + w' ≤ lo ∨ lo + w ≤ lo') : field (setField v lo x) lo' w' = field v lo' w' := by
  apply BitVec.eq_of_getLsbD_eq
  intro i hi
  rw [field_getLsbD, field_getLsbD, setField_getLsbD _ _ _ h, if_neg (by omega)]

/-! The general registers. -/

/-- A register reads as the value last written to it. -/
@[simp] theorem Regs.get_set_self (r : Regs) (k : Reg32) (x : Word) : (r.set k x).get k = x := by cases k <;> rfl

/-- Writing one register leaves the others. -/
theorem Regs.get_set_ne (r : Regs) {k j : Reg32} (x : Word) (h : j ≠ k) : (r.set k x).get j = r.get j := by
  cases k <;> cases j <;> first | rfl | exact absurd rfl h

/-! The program bytes. -/

/-- A byte placed reads back, and every other address reads as before. -/
theorem Memory.read_write (m : Memory) (a b : Nat) (x : Byte) :
    Memory.read (Memory.write m a x) b = if b = a then some x else Memory.read m b := by
  induction m with
  | nil => simp [Memory.write, Memory.read]
  | cons c m ih =>
    obtain ⟨c, y⟩ := c
    unfold Memory.write
    split
    · simp [Memory.read]
    · split
      · subst_vars; simp only [Memory.read]; split <;> rfl
      · simp only [Memory.read, ih]
        split
        · subst_vars; simp [Ne.symm ‹_›]
        · rfl

/-- An address below the first entry of a rising list holds no byte. -/
theorem Memory.read_below {m : Memory} {low a : Nat} (h : Memory.rising low m = true) (ha : a < low) :
    Memory.read m a = none := by
  induction m generalizing low with
  | nil => rfl
  | cons c m ih =>
    obtain ⟨c, y⟩ := c
    simp only [Memory.rising, Bool.and_eq_true, decide_eq_true_eq] at h
    rw [Memory.read, if_neg (by omega)]
    exact ih h.2 (by omega)

/-- Placing a byte at a 32-bit address keeps the list rising. -/
theorem Memory.rising_write {m : Memory} {low a : Nat} (x : Byte) (h : Memory.rising low m = true) (hlow : low ≤ a)
    (ha : a < addressLimit) : Memory.rising low (Memory.write m a x) = true := by
  induction m generalizing low with
  | nil => simpa [Memory.write, Memory.rising] using ⟨hlow, ha⟩
  | cons c m ih =>
    obtain ⟨c, y⟩ := c
    have h0 := h
    simp only [Memory.rising, Bool.and_eq_true, decide_eq_true_eq] at h
    unfold Memory.write
    split
    · simp only [Memory.rising, Bool.and_eq_true, decide_eq_true_eq]
      exact ⟨⟨hlow, ha⟩, ⟨by omega, h.1.2⟩, h.2⟩
    · split
      · subst_vars; simpa [Memory.rising] using h
      · simp only [Memory.rising, Bool.and_eq_true, decide_eq_true_eq]
        exact ⟨h.1, ih h.2 (by omega)⟩

/-- Placing a byte at a 32-bit address keeps the canonical form. -/
theorem Memory.wf_write {m : Memory} {a : Nat} (x : Byte) (h : Memory.wf m = true) (ha : a < addressLimit) :
    Memory.wf (Memory.write m a x) = true :=
  Memory.rising_write x h (Nat.zero_le a) ha

/-- Placing bytes below 2^32 keeps the canonical form. -/
theorem Memory.wf_writeBytes {m : Memory} {a : Nat} (xs : List Byte) (h : Memory.wf m = true)
    (ha : a + xs.length ≤ addressLimit) : Memory.wf (Memory.writeBytes m a xs) = true := by
  induction xs generalizing m a with
  | nil => exact h
  | cons x xs ih =>
    simp only [List.length_cons] at ha
    exact ih (Memory.wf_write x h (by omega)) (by omega)

/-- The memory of the machine after reset is in the canonical form. -/
theorem State.reset_prog_wf : Memory.wf State.reset.prog = true := rfl

/-- Loading an instruction word keeps the canonical form. -/
theorem State.withFetchWord_wf {s : State} (nbits w : Nat) (h : Memory.wf s.prog = true) :
    Memory.wf (s.withFetchWord nbits w).prog = true := by
  unfold State.withFetchWord
  split
  · exact Memory.wf_writeBytes _ h (by simpa [tableBytes] using ‹_›)
  · exact h

/-! The fetch. -/

/-- When the fetch answers, it answers the three bytes at pc, below 2^32. -/
theorem fetch_ok {s : State} {bs : List Byte} (h : fetch s = .ok bs) :
    s.pc.toNat + 3 ≤ addressLimit ∧ ∃ b0 b1 b2, bs = [b0, b1, b2] ∧ Memory.read s.prog s.pc.toNat = some b0 ∧
      Memory.read s.prog (s.pc.toNat + 1) = some b1 ∧ Memory.read s.prog (s.pc.toNat + 2) = some b2 := by
  unfold fetch at h
  split at h
  · refine ⟨‹_›, ?_⟩
    split at h
    · cases h; exact ⟨_, _, _, rfl, ‹_›, ‹_›, ‹_›⟩
    · cases h
  · cases h

/-- The fetch answers where the three bytes stand. -/
theorem fetch_eq {s : State} {b0 b1 b2 : Byte} (hpc : s.pc.toNat + 3 ≤ addressLimit)
    (h0 : Memory.read s.prog s.pc.toNat = some b0) (h1 : Memory.read s.prog (s.pc.toNat + 1) = some b1)
    (h2 : Memory.read s.prog (s.pc.toNat + 2) = some b2) : fetch s = .ok [b0, b1, b2] := by
  simp [fetch, hpc, h0, h1, h2]

/-! Completion. -/

/-- When pc moves on, it moves by 3, below 2^32. -/
theorem advance_next {s t : State} (h : advance s = .next t) :
    s.pc.toNat + 3 < addressLimit ∧ t = s.setPc (s.pc + 3) := by
  unfold advance at h
  split at h
  · cases h; exact ⟨‹_›, rfl⟩
  · cases h

/-- Moving pc on never faults. -/
theorem advance_ne_fault (s : State) (f : Fault) : advance s ≠ .fault f := by
  unfold advance; split <;> simp

/-- What completion does. -/
theorem complete_next {s t : State} (h : complete s = .next t) :
    s.pc.toNat + 3 < addressLimit ∧ t = s.drawFlags.setPc (s.pc + 3) :=
  advance_next h

/-- Completion answers below 2^32. -/
theorem complete_eq {s : State} (h : s.pc.toNat + 3 < addressLimit) :
    complete s = .next (s.drawFlags.setPc (s.pc + 3)) := by
  simp [complete, advance, h]

/-- Completion is refused where pc has no next value. -/
theorem complete_pcWrap {s : State} (h : addressLimit ≤ s.pc.toNat + 3) : complete s = .refused .pcWrap :=
  if_neg (Nat.not_lt.mpr h)

/-- When an instruction with a command answers, the command answered. -/
theorem completeCommand_next {x : Except Refusal State} {t : State} (h : completeCommand x = .next t) :
    ∃ u, x = .ok u ∧ u.pc.toNat + 3 < addressLimit ∧ t = u.drawFlags.setPc (u.pc + 3) := by
  cases x with
  | ok u => exact ⟨u, rfl, complete_next h⟩
  | error r => cases h

/-- Completion never faults. -/
theorem complete_ne_fault (s : State) (f : Fault) : complete s ≠ .fault f := advance_ne_fault _ f

/-- Completion of a command never faults. -/
theorem completeCommand_ne_fault (x : Except Refusal State) (f : Fault) : completeCommand x ≠ .fault f := by
  cases x with
  | ok u => exact complete_ne_fault u f
  | error r => exact nofun

/-- A pc with room for three more is not wrapped by the addition. -/
theorem pc_add_three {a : Word} (h : a.toNat + 3 < addressLimit) : (a + 3).toNat = a.toNat + 3 := by
  have : addressLimit = 4294967296 := rfl
  simp [BitVec.toNat_add]; omega

/-- The mode that may not run the instructions is protected mode at a level other than 0. -/
theorem Mode.not_privileged {m : Mode} (h : ¬ m.privileged = true) : ∃ cpl, m = .protectedAt cpl ∧ cpl ≠ 0 := by
  cases m with
  | realAddress => simp [Mode.privileged] at h
  | protectedAt cpl => exact ⟨cpl, rfl, by simpa [Mode.privileged] using h⟩

end Sys2Proof.Machine
end

