-- ==== Sys2Proof/Laws/Tlb.lean ====
section
/-! SUPPORT. What the operations of Machine/Tlb.lean do: the array, the two commands, the clearing of the valid bits. -/

namespace Sys2Proof.Machine

/-! The array. -/

/-- Every location is listed. -/
@[simp] theorem mem_allLocs (l : Loc) : l ∈ allLocs := by
  obtain ⟨b, i⟩ := l
  simp only [allLocs, List.mem_flatMap, List.mem_map, Loc.mk.injEq]
  refine ⟨b, ?_, i, ?_, rfl, rfl⟩
  · revert b; decide
  · revert i; decide

/-- No location is listed twice. -/
theorem allLocs_nodup : allLocs.Nodup := by decide

/-- A block of the array with one entry replaced, entry by entry. -/
theorem Tlb.get_set (t : Tlb) (l l' : Loc) (e : TlbEntry) : (t.set l e).get l' = if l' = l then e else t.get l' := by
  obtain ⟨b, i⟩ := l
  obtain ⟨b', i'⟩ := l'
  simp only [Tlb.get, Tlb.set, Loc.mk.injEq, Fin.getElem_fin, Vector.getElem_set]
  by_cases hb : b = b'
  · subst hb
    by_cases hi : i = i'
    · subst hi; simp
    · have : (i : Nat) ≠ i' := fun h => hi (Fin.ext h)
      simp [this, Ne.symm hi]
  · have : (b : Nat) ≠ b' := fun h => hb (Fin.ext h)
    simp [this, Ne.symm hb]

/-- The entry just set. -/
@[simp] theorem Tlb.get_set_self (t : Tlb) (l : Loc) (e : TlbEntry) : (t.set l e).get l = e := by
  simp [Tlb.get_set]

/-- Every other entry. -/
theorem Tlb.get_set_ne (t : Tlb) {l l' : Loc} (e : TlbEntry) (h : l' ≠ l) : (t.set l e).get l' = t.get l' := by
  simp [Tlb.get_set, h]

/-- An array given entry by entry. -/
@[simp] theorem Tlb.get_ofEntries (f : Loc → TlbEntry) (l : Loc) : (Tlb.ofEntries f).get l = f l := by
  obtain ⟨b, i⟩ := l
  fin_cases b <;> fin_cases i <;> rfl

/-- Clearing the valid bits, entry by entry. -/
@[simp] theorem Tlb.get_clearValid (t : Tlb) (l : Loc) : t.clearValid.get l = (t.get l).clearValid := by
  rw [Tlb.clearValid, Tlb.get_ofEntries]

/-- Two arrays with the same entries are the same. -/
theorem Tlb.ext_get {t u : Tlb} (h : ∀ l, t.get l = u.get l) : t = u := by
  obtain ⟨t⟩ := t
  obtain ⟨u⟩ := u
  congr 1
  ext1 b hb
  ext1 i hi
  exact h ⟨⟨b, hb⟩, ⟨i, hi⟩⟩

/-- After reset every entry is unassigned. -/
@[simp] theorem State.reset_tlb_get (l : Loc) : State.reset.tlb.get l = TlbEntry.unassigned := by
  simp [State.reset, Tlb.get]

/-! Tags. -/

theorem TlbEntry.sameTag_iff (e f : TlbEntry) :
    e.sameTag f = true ↔ e.la = f.la ∧ e.v = f.v ∧ e.d = f.d ∧ e.u = f.u ∧ e.w = f.w := by
  simp [TlbEntry.sameTag, and_assoc]

theorem TlbEntry.matchesTag_iff (e : TlbEntry) (v : Word) :
    e.matchesTag v = true ↔ e.init = true ∧ e.la = tr6La v ∧ e.v = tr6V v ∧ e.d = tr6D v ∧ e.u = tr6U v ∧ e.w = tr6W v := by
  simp [TlbEntry.matchesTag, and_assoc]

/-- A duplicate is an initialised entry elsewhere with the same tag (41_tlb_test_operations.md R66). -/
theorem Tlb.hasDuplicate_iff (t : Tlb) (l : Loc) (e : TlbEntry) :
    t.hasDuplicate l e = true ↔ ∃ l', l' ≠ l ∧ (t.get l').init = true ∧ (t.get l').sameTag e = true := by
  simp only [Tlb.hasDuplicate, List.any_eq_true, mem_allLocs, true_and, Bool.and_eq_true, Bool.not_eq_true',
    Bool.and_eq_false_iff, beq_eq_false_iff_ne]
  refine exists_congr fun l' => ?_
  have : l' ≠ l ↔ (l'.block ≠ l.block ∨ l'.entry ≠ l.entry) := by
    cases l; cases l'; simp [Loc.mk.injEq]; tauto
  rw [this]; tauto

theorem Tlb.hasUninit_iff (t : Tlb) : t.hasUninit = true ↔ ∃ l, (t.get l).init = false := by
  simp [Tlb.hasUninit]

/-! Table 10-1. -/

theorem pairDefined_iff (x xn : Bit) : pairDefined x xn = true ↔ x ≠ xn := by simp [pairDefined]

/-- A defined pair stands for X, whatever the free value. -/
theorem pairValue_defined {x xn : Bit} (h : pairDefined x xn = true) (f : Bit) : pairValue x xn f = x := by
  simp [pairValue, h]

/-- In a defined pair the second bit is the complement of the first. -/
theorem pairDefined_compl {x xn : Bit} (h : pairDefined x xn = true) : xn = ~~~x := by
  revert x xn; decide

theorem pairsDefined_iff (v : Word) : pairsDefined v = true ↔
    pairDefined (tr6D v) (tr6Dn v) = true ∧ pairDefined (tr6U v) (tr6Un v) = true ∧
      pairDefined (tr6W v) (tr6Wn v) = true := by
  simp [pairsDefined, and_assoc]

/-! The TLB write command. -/

/-- When the TLB write answers, HT was 1, the tag was no duplicate, and one entry is set. -/
theorem tlbWrite_ok {s t : State} (h : tlbWrite s = .ok t) :
    tr7Ht s.tr7 = 1 ∧ s.tlb.hasDuplicate (writeLoc s.tr6 s.tr7) s.newEntry = false ∧
      t = (s.setTlb (s.tlb.set (writeLoc s.tr6 s.tr7) s.newEntry)).useDraws 3 := by
  unfold tlbWrite at h
  split at h
  · split at h
    · cases h
    · rename_i ht hd
      cases h; exact ⟨ht, by simpa using hd, rfl⟩
  · cases h

/-- The TLB write answers when HT is 1 and the tag is no duplicate. -/
theorem tlbWrite_eq {s : State} (ht : tr7Ht s.tr7 = 1)
    (hd : s.tlb.hasDuplicate (writeLoc s.tr6 s.tr7) s.newEntry = false) :
    tlbWrite s = .ok ((s.setTlb (s.tlb.set (writeLoc s.tr6 s.tr7) s.newEntry)).useDraws 3) := by
  simp [tlbWrite, ht, hd]

/-- The TLB write is refused when HT is 0. -/
theorem tlbWrite_ht0 {s : State} (ht : tr7Ht s.tr7 = 0) : tlbWrite s = .error .writeWithHt0 := by
  simp [tlbWrite, ht]

/-- The TLB write is refused when the tag is a duplicate. -/
theorem tlbWrite_duplicate {s : State} (ht : tr7Ht s.tr7 = 1)
    (hd : s.tlb.hasDuplicate (writeLoc s.tr6 s.tr7) s.newEntry = true) : tlbWrite s = .error .duplicateTag := by
  simp [tlbWrite, ht, hd]

/-! The TLB lookup command. -/

theorem Tlb.mem_matching (t : Tlb) (v : Word) (l : Loc) : l ∈ t.matching v ↔ (t.get l).matchesTag v = true := by
  simp [Tlb.matching]

theorem Tlb.matching_nodup (t : Tlb) (v : Word) : (t.matching v).Nodup := allLocs_nodup.filter _

/-- Exactly one entry matches. -/
theorem Tlb.matching_eq_singleton (t : Tlb) (v : Word) (l : Loc) :
    t.matching v = [l] ↔ (t.get l).matchesTag v = true ∧ ∀ l', (t.get l').matchesTag v = true → l' = l := by
  constructor
  · intro h
    refine ⟨(t.mem_matching v l).1 (by simp [h]), fun l' hl' => ?_⟩
    have := (t.mem_matching v l').2 hl'
    simpa [h] using this
  · rintro ⟨hl, hu⟩
    have hmem := (t.mem_matching v l).2 hl
    have hall : ∀ l' ∈ t.matching v, l' = l := fun l' h' => hu l' ((t.mem_matching v l').1 h')
    have hnd := t.matching_nodup v
    generalize t.matching v = m at hmem hall hnd
    match m, hmem, hall, hnd with
    | [a], _, hall, _ => simpa using hall
    | a :: b :: m, _, hall, hnd =>
      have ha := hall a (by simp)
      have hb := hall b (by simp)
      simp [ha, hb] at hnd

/-- No entry matches. -/
theorem Tlb.matching_eq_nil (t : Tlb) (v : Word) :
    t.matching v = [] ↔ ∀ l, (t.get l).matchesTag v = false := by
  simp [List.eq_nil_iff_forall_not_mem, t.mem_matching]

theorem Tlb.ordinary_iff (t : Tlb) (v : Word) :
    t.Ordinary v ↔ pairsDefined v = true ∧ ¬ (tr6V v = 0 ∧ t.hasUninit = true) := by
  simp [Tlb.Ordinary, t.hasUninit_iff]

/-- An ordinary lookup is decided by the matching entries. -/
theorem Tlb.lookup_ordinary {t : Tlb} {v : Word} (h : t.Ordinary v) :
    t.lookup v = resultOfMatches (t.matching v) := by
  rw [t.ordinary_iff] at h
  simp only [Tlb.lookup, h.1, if_true, if_neg h.2]

/-- A lookup that is not ordinary is unpredictable. -/
theorem Tlb.lookup_not_ordinary {t : Tlb} {v : Word} (h : ¬ t.Ordinary v) : t.lookup v = .any := by
  rw [t.ordinary_iff] at h
  unfold Tlb.lookup
  split
  · rw [if_pos (by tauto)]
  · rfl

/-- When a lookup hits. -/
theorem Tlb.lookup_hit_iff (t : Tlb) (v : Word) (l : Loc) : t.lookup v = .hit l ↔
    t.Ordinary v ∧ (t.get l).matchesTag v = true ∧ ∀ l', (t.get l').matchesTag v = true → l' = l := by
  by_cases ho : t.Ordinary v
  · rw [and_iff_right ho, Tlb.lookup_ordinary ho, ← t.matching_eq_singleton v l]
    match t.matching v with
    | [] => simp [resultOfMatches]
    | [a] => simp [resultOfMatches]
    | a :: b :: m => simp [resultOfMatches]
  · simp [Tlb.lookup_not_ordinary ho, ho]

/-- When a lookup misses. -/
theorem Tlb.lookup_miss_iff (t : Tlb) (v : Word) : t.lookup v = .miss ↔
    t.Ordinary v ∧ ∀ l, (t.get l).matchesTag v = false := by
  by_cases ho : t.Ordinary v
  · rw [and_iff_right ho, Tlb.lookup_ordinary ho, ← t.matching_eq_nil v]
    match t.matching v with
    | [] => simp [resultOfMatches]
    | [a] => simp [resultOfMatches]
    | a :: b :: m => simp [resultOfMatches]
  · simp [Tlb.lookup_not_ordinary ho, ho]

/-- When the result of a lookup is unpredictable. -/
theorem Tlb.lookup_any_iff (t : Tlb) (v : Word) : t.lookup v = .any ↔
    ¬ t.Ordinary v ∨ ∃ l l', l ≠ l' ∧ (t.get l).matchesTag v = true ∧ (t.get l').matchesTag v = true := by
  by_cases ho : t.Ordinary v
  · constructor
    · intro h
      right
      by_contra hc
      push Not at hc
      rcases hm : t.matching v with _ | ⟨a, m⟩
      · rw [Tlb.lookup_ordinary ho, hm] at h; cases h
      · have ha : (t.get a).matchesTag v = true := (t.mem_matching v a).1 (by simp [hm])
        have := (t.lookup_hit_iff v a).2 ⟨ho, ha, fun l' hl' => by
          by_contra hne
          exact absurd hl' (hc a l' (Ne.symm hne) ha)⟩
        rw [this] at h; cases h
    · rintro (h | ⟨l, l', hne, hl, hl'⟩)
      · exact absurd ho h
      · rcases hr : t.lookup v with a | _ | _
        · have := ((t.lookup_hit_iff v a).1 hr).2.2
          exact absurd ((this l hl).trans (this l' hl').symm) hne
        · have := ((t.lookup_miss_iff v).1 hr).2 l
          simp [this] at hl
        · rfl
  · simp [Tlb.lookup_not_ordinary ho, ho]

/-! What the commands leave alone. -/

/-- A lookup changes only TR6, TR7 and the count of free values. -/
theorem tlbLookup_frame (s : State) : (tlbLookup s).regs = s.regs ∧ (tlbLookup s).pc = s.pc ∧
    (tlbLookup s).flags = s.flags ∧ (tlbLookup s).mode = s.mode ∧ (tlbLookup s).pg = s.pg ∧
    (tlbLookup s).tlb = s.tlb ∧ (tlbLookup s).prog = s.prog := by
  unfold tlbLookup
  split <;> simp [lookupHit, lookupMiss, lookupAny]

/-- C = 0 selects the write. -/
theorem tlbCommand_write {s : State} (h : tr6C s.tr6 = 0) : tlbCommand s = tlbWrite s := by simp [tlbCommand, h]

/-- C = 1 selects the lookup. -/
theorem tlbCommand_lookup {s : State} (h : tr6C s.tr6 = 1) : tlbCommand s = .ok (tlbLookup s) := by
  simp [tlbCommand, h]

/-- When the command answers, it is the write for C = 0 and the lookup for C = 1. -/
theorem tlbCommand_ok {s t : State} (h : tlbCommand s = .ok t) :
    (tr6C s.tr6 = 0 ∧ tlbWrite s = .ok t) ∨ (tr6C s.tr6 = 1 ∧ t = tlbLookup s) := by
  unfold tlbCommand at h
  split at h
  · exact .inl ⟨‹_›, h⟩
  · cases h
    refine .inr ⟨?_, rfl⟩
    have : ∀ x : Bit, x ≠ 0 → x = 1 := by decide
    exact this _ ‹_›

/-- A command changes only TR6, TR7, the TLB and the count of free values. -/
theorem tlbCommand_frame {s t : State} (h : tlbCommand s = .ok t) : t.regs = s.regs ∧ t.pc = s.pc ∧
    t.flags = s.flags ∧ t.mode = s.mode ∧ t.pg = s.pg ∧ t.prog = s.prog := by
  rcases tlbCommand_ok h with ⟨-, hw⟩ | ⟨-, rfl⟩
  · obtain ⟨-, -, rfl⟩ := tlbWrite_ok hw
    simp
  · have := tlbLookup_frame s
    tauto

end Sys2Proof.Machine
end

