-- ==== Sys2Proof/Laws/Fields.lean ====
section
/-! SUPPORT. The fields of TR6 and TR7 under the updates the commands make, and their reserved positions. -/

namespace Sys2Proof.Machine

/-! Reserved positions. -/

/-- The positions of TR6 that hold state. -/
theorem tr6_mask_getLsbD (v : Word) (b : Nat) :
    (v &&& 0xFFFFFFE1#32).getLsbD b = (!decide (1 ≤ b ∧ b ≤ 4) && v.getLsbD b) := by
  by_cases h : b < 32
  · interval_cases b <;> simp
  · rw [BitVec.getLsbD_of_ge _ _ (by omega), BitVec.getLsbD_of_ge v _ (by omega), Bool.and_false]

/-- The positions of TR7 that hold state. -/
theorem tr7_mask_getLsbD (v : Word) (b : Nat) :
    (v &&& 0xFFFFF01C#32).getLsbD b = (!decide (b ≤ 1 ∨ (5 ≤ b ∧ b ≤ 11)) && v.getLsbD b) := by
  by_cases h : b < 32
  · interval_cases b <;> simp
  · rw [BitVec.getLsbD_of_ge _ _ (by omega), BitVec.getLsbD_of_ge v _ (by omega), Bool.and_false]

/-- A field is 0 exactly when its bits are. -/
theorem field_eq_zero_iff (v : Word) (lo w : Nat) :
    field v lo w = 0 ↔ ∀ b, lo ≤ b ∧ b < lo + w → v.getLsbD b = false := by
  constructor
  · rintro h b ⟨h1, h2⟩
    have := congrArg (fun x => x.getLsbD (b - lo)) h
    simp only [field_getLsbD] at this
    rw [show lo + (b - lo) = b by omega] at this
    have hb : b - lo < w := by omega
    simpa [hb] using this
  · intro h
    apply BitVec.eq_of_getLsbD_eq
    intro i hi
    rw [field_getLsbD, h _ (by omega)]
    simp

/-- A value may be moved into TR6 when bits 4:1 are 0 (10_state.md R17). -/
theorem tr6Writable_iff (v : Word) : tr6Writable v = true ↔ ∀ b, 1 ≤ b ∧ b ≤ 4 → v.getLsbD b = false := by
  simp only [tr6Writable, tr6Reserved, beq_iff_eq, field_eq_zero_iff]
  exact forall_congr' fun b => by rw [show b < 1 + 4 ↔ b ≤ 4 by omega]

/-- A value may be moved into TR7 when bits 11:5 and 1:0 are 0 (10_state.md R17). -/
theorem tr7Writable_iff (v : Word) :
    tr7Writable v = true ↔ ∀ b, b ≤ 1 ∨ (5 ≤ b ∧ b ≤ 11) → v.getLsbD b = false := by
  simp only [tr7Writable, tr7ReservedHigh, tr7ReservedLow, Bool.and_eq_true, beq_iff_eq, field_eq_zero_iff]
  constructor
  · rintro ⟨h1, h2⟩ b (h | h)
    · exact h2 b (by omega)
    · exact h1 b (by omega)
  · intro h
    exact ⟨fun b hb => h b (by omega), fun b hb => h b (by omega)⟩

/-! The fields of TR7 after a lookup. -/

@[simp] theorem tr7Pa_withResult (v : Word) (pa : Page) (ht : Bit) (rep : BitVec 2) :
    tr7Pa (tr7WithResult v pa ht rep) = pa := by
  simp only [tr7Pa, tr7WithResult]
  rw [field_setField_ne _ _ _ _ _ (by omega) (by omega), field_setField_ne _ _ _ _ _ (by omega) (by omega),
    field_setField_self _ _ _ (by omega)]

@[simp] theorem tr7Ht_withResult (v : Word) (pa : Page) (ht : Bit) (rep : BitVec 2) :
    tr7Ht (tr7WithResult v pa ht rep) = ht := by
  simp only [tr7Ht, tr7WithResult]
  rw [field_setField_ne _ _ _ _ _ (by omega) (by omega), field_setField_self _ _ _ (by omega)]

@[simp] theorem tr7Rep_withResult (v : Word) (pa : Page) (ht : Bit) (rep : BitVec 2) :
    tr7Rep (tr7WithResult v pa ht rep) = rep := by
  simp only [tr7Rep, tr7WithResult]
  rw [field_setField_self _ _ _ (by omega)]

@[simp] theorem tr7ReservedHigh_withResult (v : Word) (pa : Page) (ht : Bit) (rep : BitVec 2) :
    tr7ReservedHigh (tr7WithResult v pa ht rep) = tr7ReservedHigh v := by
  simp only [tr7ReservedHigh, tr7WithResult]
  rw [field_setField_ne _ _ _ _ _ (by omega) (by omega), field_setField_ne _ _ _ _ _ (by omega) (by omega),
    field_setField_ne _ _ _ _ _ (by omega) (by omega)]

@[simp] theorem tr7ReservedLow_withResult (v : Word) (pa : Page) (ht : Bit) (rep : BitVec 2) :
    tr7ReservedLow (tr7WithResult v pa ht rep) = tr7ReservedLow v := by
  simp only [tr7ReservedLow, tr7WithResult]
  rw [field_setField_ne _ _ _ _ _ (by omega) (by omega), field_setField_ne _ _ _ _ _ (by omega) (by omega),
    field_setField_ne _ _ _ _ _ (by omega) (by omega)]

/-- TR7 after a lookup, bit by bit. -/
theorem tr7WithResult_getLsbD (v : Word) (pa : Page) (ht : Bit) (rep : BitVec 2) (b : Nat) :
    (tr7WithResult v pa ht rep).getLsbD b =
      if 2 ≤ b ∧ b < 4 then rep.getLsbD (b - 2) else if 4 ≤ b ∧ b < 5 then ht.getLsbD (b - 4)
      else if 12 ≤ b ∧ b < 32 then pa.getLsbD (b - 12) else v.getLsbD b := by
  simp only [tr7WithResult]
  rw [setField_getLsbD _ _ _ (by omega), setField_getLsbD _ _ _ (by omega), setField_getLsbD _ _ _ (by omega)]

/-! TR6 after a lookup. -/

/-- A field set to the value it has leaves the word. -/
theorem setField_field (v : Word) (lo w : Nat) (h : lo + w ≤ 32) : setField v lo (field v lo w) = v := by
  apply BitVec.eq_of_getLsbD_eq
  intro i hi
  rw [setField_getLsbD _ _ _ h, field_getLsbD]
  split
  · rename_i hb
    rw [show lo + (i - lo) = i by omega]
    simp; omega
  · rfl

/-- After a hit TR6 holds the value moved into it: the entry's tag bits are those asked for
(41_tlb_test_operations.md R68). -/
theorem tr6FromEntry_of_match {v : Word} {e : TlbEntry} (hp : pairsDefined v = true) (hm : e.matchesTag v = true) :
    tr6FromEntry v e = v := by
  obtain ⟨-, -, hv, hd, hu, hw⟩ := (e.matchesTag_iff v).1 hm
  obtain ⟨pd, pu, pw⟩ := (pairsDefined_iff v).1 hp
  simp only [tr6FromEntry, hv, hd, hu, hw, ← pairDefined_compl pd, ← pairDefined_compl pu, ← pairDefined_compl pw]
  simp only [tr6V, tr6D, tr6Dn, tr6U, tr6Un, tr6W, tr6Wn]
  repeat rw [setField_field _ _ _ (by omega)]

end Sys2Proof.Machine
end

