-- ==== Sys2Proof/Laws/Exec.lean ====
section
/-! SUPPORT. What each meaning and the step can do, said once: if it answers a next state, then that state is so. -/

namespace Sys2Proof.Machine

/-! exec by constructor. -/

theorem exec_movR32Tr6 (k : Reg32) (s : State) : exec (.movR32Tr6 k) s = execMovR32Tr6 k s := rfl

theorem exec_movR32Tr7 (k : Reg32) (s : State) : exec (.movR32Tr7 k) s = execMovR32Tr7 k s := rfl

theorem exec_movTr6R32 (k : Reg32) (s : State) : exec (.movTr6R32 k) s = execMovTr6R32 k s := rfl

theorem exec_movTr7R32 (k : Reg32) (s : State) : exec (.movTr7R32 k) s = execMovTr7R32 k s := rfl

theorem exec_movCr3R32 (k : Reg32) (s : State) : exec (.movCr3R32 k) s = execMovCr3R32 k s := rfl

/-! What a next state says. -/

theorem execMovR32Tr6_next {k : Reg32} {s t : State} (h : execMovR32Tr6 k s = .next t) :
    s.mode.privileged = true ∧ s.pc.toNat + 3 < addressLimit ∧
      t = (((s.writeReg k s.readTr6).useDraws 1).drawFlags).setPc (s.pc + 3) := by
  unfold execMovR32Tr6 at h
  split at h
  · obtain ⟨hp, rfl⟩ := complete_next h
    exact ⟨‹_›, hp, rfl⟩
  · cases h

theorem execMovR32Tr7_next {k : Reg32} {s t : State} (h : execMovR32Tr7 k s = .next t) :
    s.mode.privileged = true ∧ s.pc.toNat + 3 < addressLimit ∧
      t = (((s.writeReg k s.readTr7).useDraws 2).drawFlags).setPc (s.pc + 3) := by
  unfold execMovR32Tr7 at h
  split at h
  · obtain ⟨hp, rfl⟩ := complete_next h
    exact ⟨‹_›, hp, rfl⟩
  · cases h

theorem execMovTr6R32_next {k : Reg32} {s t : State} (h : execMovTr6R32 k s = .next t) :
    s.mode.privileged = true ∧ tr6Writable (s.regs.get k) = true ∧ s.pg = false ∧
      s.pc.toNat + 3 < addressLimit ∧ ∃ u, tlbCommand (s.setTr6 (s.regs.get k)) = .ok u ∧
        t = u.drawFlags.setPc (s.pc + 3) := by
  unfold execMovTr6R32 at h
  split at h
  · split at h
    · split at h
      · cases h
      · rename_i hpg
        obtain ⟨u, hu, hp, rfl⟩ := completeCommand_next h
        have hf := tlbCommand_frame hu
        simp only [State.setTr6_pc] at hf
        rw [hf.2.1] at hp
        exact ⟨‹_›, ‹_›, by simpa using hpg, hp, u, hu, by rw [hf.2.1]⟩
    · cases h
  · cases h

theorem execMovTr7R32_next {k : Reg32} {s t : State} (h : execMovTr7R32 k s = .next t) :
    s.mode.privileged = true ∧ tr7Writable (s.regs.get k) = true ∧ s.pc.toNat + 3 < addressLimit ∧
      t = ((s.setTr7 (s.regs.get k)).drawFlags).setPc (s.pc + 3) := by
  unfold execMovTr7R32 at h
  split at h
  · split at h
    · obtain ⟨hp, rfl⟩ := complete_next h
      exact ⟨‹_›, ‹_›, hp, rfl⟩
    · cases h
  · cases h

theorem execMovCr3R32_next {k : Reg32} {s t : State} (h : execMovCr3R32 k s = .next t) :
    s.mode.privileged = true ∧ s.pg = false ∧ s.pc.toNat + 3 < addressLimit ∧
      t = ((s.setTlb s.tlb.clearValid).drawFlags).setPc (s.pc + 3) := by
  unfold execMovCr3R32 at h
  split at h
  · split at h
    · cases h
    · rename_i hpg
      obtain ⟨hp, rfl⟩ := complete_next h
      exact ⟨‹_›, by simpa using hpg, hp, rfl⟩
  · cases h

/-- Where the checks pass, MOV TR6,r32 is the transfer, the command and the completion. -/
theorem execMovTr6R32_eq {k : Reg32} {s : State} (hp : s.mode.privileged = true) (hg : s.pg = false)
    (hw : tr6Writable (s.regs.get k) = true) :
    execMovTr6R32 k s = completeCommand (tlbCommand (s.setTr6 (s.regs.get k))) := by
  unfold execMovTr6R32
  rw [if_pos hp, if_pos hw, hg]
  rfl

/-- When a step answers a next state, it fetched and decoded an instruction, and that instruction answered. -/
theorem step_next {s t : State} (h : step s = .next t) :
    ∃ bs i rest, fetch s = .ok bs ∧ decode bs = .ok (i, rest) ∧ exec i s = .next t := by
  unfold step at h
  split at h
  · cases h
  · split at h
    · exact ⟨_, _, _, ‹_›, ‹_›, h⟩
    · cases h

end Sys2Proof.Machine
end

