-- ==== Sys2Proof/Laws/PerInstr.lean ====
section
/-! SUPPORT. The family Encoding: each instruction's encoding is well formed and three bytes long
(30_encoding.md R41, R42). -/

namespace Sys2Proof.Laws.Encoding

/-- The fields of the instruction pass every check, and its encoding has three bytes. -/
def Statement (i : Sys2Proof.Instr) : Prop :=
  i.format.wellFormed = true ∧ (Sys2Proof.encode i).length = 3

theorem movR32Tr6 (k : Sys2Proof.Reg32) : Statement (.movR32Tr6 k) := ⟨rfl, rfl⟩

theorem movR32Tr7 (k : Sys2Proof.Reg32) : Statement (.movR32Tr7 k) := ⟨rfl, rfl⟩

theorem movTr6R32 (k : Sys2Proof.Reg32) : Statement (.movTr6R32 k) := ⟨rfl, rfl⟩

theorem movTr7R32 (k : Sys2Proof.Reg32) : Statement (.movTr7R32 k) := ⟨rfl, rfl⟩

theorem movCr3R32 (k : Sys2Proof.Reg32) : Statement (.movCr3R32 k) := ⟨rfl, rfl⟩

end Sys2Proof.Laws.Encoding
end

