-- ==== Sys2Proof/Tests/Slice0.lean ====
section
/-! SUPPORT. Tests with values taken from 95_test_vectors.md, and for every obligation that has hypotheses a witness that
meets them together. -/

namespace Sys2Proof.Tests

open Sys2Proof.Machine

/-! Well-formedness: one ill-formed term for each check. -/

theorem test_wf_good : (splitFormat 0x0F 0x26 0xF3).wellFormed = true := by decide

theorem test_wf_escape : (Format.mk 0x0E 0x26 3 6 0).escapeOk = false ∧ (Format.mk 0x0E 0x26 3 6 0).wellFormed = false := by
  decide

theorem test_wf_op : (Format.mk 0x0F 0x20 3 3 0).opOk = false ∧ (Format.mk 0x0F 0x20 3 3 0).wellFormed = false := by
  decide

/-- T18: `0F 26 33` has mod = 00. -/
theorem test_wf_mod : (splitFormat 0x0F 0x26 0x33).modOk = false ∧ (splitFormat 0x0F 0x26 0x33).wellFormed = false := by
  decide

/-- T18: `0F 26 D8` names TR3. -/
theorem test_wf_reg : (splitFormat 0x0F 0x26 0xD8).regOk = false ∧ (splitFormat 0x0F 0x26 0xD8).wellFormed = false := by
  decide

theorem test_wf_reg_cr : (Format.mk 0x0F 0x22 3 6 0).regOk = false ∧ (Format.mk 0x0F 0x22 3 6 0).wellFormed = false := by
  decide

/-! Decoding: words written out from 30_encoding.md R44. -/

theorem test_decode_movR32Tr6 : decode [0x0F, 0x24, 0b11110001] = .ok (.movR32Tr6 .ecx, []) := by decide

theorem test_decode_movR32Tr7 : decode [0x0F, 0x24, 0b11111111] = .ok (.movR32Tr7 .edi, []) := by decide

theorem test_decode_movTr6R32 : decode [0x0F, 0x26, 0b11110011] = .ok (.movTr6R32 .ebx, []) := by decide

theorem test_decode_movTr7R32 : decode [0x0F, 0x26, 0b11111011, 0x90] = .ok (.movTr7R32 .ebx, [0x90]) := by decide

theorem test_decode_movCr3R32 : decode [0x0F, 0x22, 0b11011100] = .ok (.movCr3R32 .esp, []) := by decide

/-- T18: a prefixed form, and a read of CR3. -/
theorem test_decode_refused :
    decode [0x66, 0x0F, 0x26, 0xF3] = .error .notInScope ∧ decode [0x0F, 0x20, 0xD8] = .error .notInScope := by decide

/-- The `match` words of the five rows of spec/opcode_table.json, at the numbering of R44. -/
theorem test_decode_table_words :
    decodeTableWord 24 0x0F24F0 = some (.movR32Tr6 .eax) ∧ decodeTableWord 24 0x0F24F8 = some (.movR32Tr7 .eax) ∧
    decodeTableWord 24 0x0F26F0 = some (.movTr6R32 .eax) ∧ decodeTableWord 24 0x0F26F8 = some (.movTr7R32 .eax) ∧
    decodeTableWord 24 0x0F22D8 = some (.movCr3R32 .eax) ∧ decodeTableWord 24 0xF0240F = none := by decide

/-! States. -/

/-- The TLB after reset. -/
def emptyTlb : Tlb := State.reset.tlb

/-- The reset state of the vectors (95_test_vectors.md) with TR6 = 0: two registers, TR7 and the TLB given. -/
def small (eax ebx tr7 : Word) (tlb : Tlb) : State :=
  { State.reset with regs := { State.reset.regs with eax := eax, ebx := ebx }, tr6 := 0, tr7 := tr7, tlb := tlb }

/-- An assigned entry with D = 1, U = 0, W = 1. -/
def entry (la : Page) (v : Bit) (pa : Page) : TlbEntry :=
  { init := true, la := la, v := v, d := 1, u := 0, w := 1, pa := pa }

/-- A TLB with the entry of T1 at entry 6 of block 2. -/
def oneEntry : Tlb := emptyTlb.set ⟨2, 6⟩ (entry 0xABCDE 1 0x12345)

/-- Two entries with one tag, at entry 6 of blocks 1 and 2. -/
def twoEntries : Tlb := oneEntry.set ⟨1, 6⟩ (entry 0xABCDE 1 0x54321)

/-- A block of eight assigned entries. -/
def fullBlock (la : Page) : Vector TlbEntry 8 :=
  #v[entry la 1 1, entry (la + 1) 1 1, entry (la + 2) 1 1, entry (la + 3) 1 1,
     entry (la + 4) 1 1, entry (la + 5) 1 1, entry (la + 6) 1 1, entry (la + 7) 1 1]

/-- A TLB with 32 assigned entries of different tags. -/
def fullTlb : Tlb := { blocks := #v[fullBlock 0x100, fullBlock 0x108, fullBlock 0x110, fullBlock 0x118] }

/-- The state with its protected-mode privilege level. -/
def atLevel (cpl : Fin 4) (s : State) : State := { s with mode := .protectedAt cpl }

/-- The three bytes of an instruction placed at pc. -/
def loaded (i : Instr) (s : State) : State :=
  { s with prog := Memory.writeBytes s.prog s.pc.toNat (encode i) }

/-- The next state of an outcome, and the state given where there is none. -/
def nextOr (s : State) : Host.Outcome State Fault Refusal → State
  | .next t => t
  | _ => s

/-! One step of each instruction. -/

/-- R50's example. -/
theorem test_movR32Tr6 :
    (nextOr State.reset (exec (.movR32Tr6 .edx) { small 0 0 0 emptyTlb with tr6 := 0xABCDECC0 })).regs.edx
      &&& 0xFFFFFFE1#32 = 0xABCDECC0#32 := by
  have h : ∀ x : BitVec 4, setField 0xABCDECC0#32 1 x &&& 0xFFFFFFE1#32 = 0xABCDECC0#32 := by decide
  exact h _

/-- R51's example. -/
theorem test_movR32Tr7 :
    (nextOr State.reset (exec (.movR32Tr7 .ecx) (small 0 0 0x12345018 emptyTlb))).regs.ecx &&& 0xFFFFF01C#32
      = 0x12345018#32 := by
  have h : ∀ (x : BitVec 7) (y : BitVec 2),
      setField (setField 0x12345018#32 5 x) 0 y &&& 0xFFFFF01C#32 = 0x12345018#32 := by decide
  exact h _ _

/-- T1, second instruction: the entry named by TR7 and TR6 holds the fields of the value moved. -/
theorem test_movTr6R32_write :
    (nextOr State.reset (exec (.movTr6R32 .eax) (small 0xABCDECC0 0 0x12345018 emptyTlb))).tlb.get
      ⟨2, Config.tlbIndex 0xABCDE⟩ = entry 0xABCDE 1 0x12345 :=
  Tlb.get_set_self emptyTlb ⟨2, Config.tlbIndex 0xABCDE⟩ _

/-- T2, first instruction: a hit reports the physical address, HT and the block, and keeps TR6. -/
theorem test_movTr6R32_lookup :
    (nextOr State.reset (exec (.movTr6R32 .eax) (small 0xABCDECC1 0 0 oneEntry))).tr7 = 0x12345018#32 ∧
    (nextOr State.reset (exec (.movTr6R32 .eax) (small 0xABCDECC1 0 0 oneEntry))).tr6 = 0xABCDECC1#32 := by decide

/-- T1, first instruction. -/
theorem test_movTr7R32 :
    (nextOr State.reset (exec (.movTr7R32 .eax) (small 0x12345018 0 0 emptyTlb))).tr7 = 0x12345018#32 := by decide

/-- T13: bit 11 is reserved. -/
theorem test_movTr7R32_reserved :
    (match exec (.movTr7R32 .eax) (small 0x12345818 0 0 emptyTlb) with
      | .refused r => some r
      | _ => none) = some .reservedBitSet := by decide

/-- R72's example: V becomes 0 and the rest of the entry stays. -/
theorem test_movCr3R32 :
    (nextOr State.reset (exec (.movCr3R32 .eax) (small 0 0 0 oneEntry))).tlb.get ⟨2, 6⟩ = entry 0xABCDE 0 0x12345 := by
  decide

/-- T17: with PG = 1 the write to CR3 is refused. -/
theorem test_movCr3R32_paging :
    (match exec (.movCr3R32 .eax) { small 0 0 0 emptyTlb with pg := true } with
      | .refused r => some r
      | _ => none) = some .pagingOn := by decide

/-- T11: at CPL 3 MOV TR6,EAX faults although the value has a reserved bit. -/
theorem test_privilege_first :
    (match exec (.movTr6R32 .eax) (atLevel 3 (small 0xABCDECC2 0 0 emptyTlb)) with
      | .fault f => some f
      | _ => none) = some (.generalProtection 0) := by decide

/-- The loaded word is the first instruction after reset: pc has moved by its length. -/
theorem test_first_step :
    (nextOr State.reset (step (State.reset.withFetchWord 24 0x0F22D8))).pc = 0x0000FFF3#32 ∧
    (nextOr State.reset (step (State.reset.withFetchWord 24 0x0F26F8))).pc = 0x0000FFF3#32 ∧
    (nextOr State.reset (step (State.reset.withFetchWord 24 0x0F24F0))).pc = 0x0000FFF3#32 := by decide

/-- Vector P1, first instruction, launched as a program of one. -/
theorem test_run_of_one :
    (nextOr State.reset (runProgram (small 0x12345018 0 0 emptyTlb) 0x1000 [.movTr7R32 .eax])).tr7 = 0x12345018#32 := by
  decide

/-! Witnesses: each theorem `witness_<Name>` gives values that meet all hypotheses of `Obligations.<Name>` together. -/

theorem witness_EncodeOfDecodeIsTheBytes : decode [0x0F, 0x26, 0xF3, 0x90] = .ok (.movTr6R32 .ebx, [0x90]) := by decide

theorem witness_DecodeFollowsOpcodeTable : ([0x0F, 0x26] : List Byte).length < 3 := by decide

/-- The last place where three bytes fit below 2^32. -/
theorem witness_StepRunsTheDecodedInstr :
    let s := loaded (.movTr6R32 .ebx) { State.reset with pc := 0xFFFFFFFD }
    s.pc.toNat + 3 ≤ addressLimit ∧ Memory.read s.prog s.pc.toNat = some 0x0F ∧
      Memory.read s.prog (s.pc.toNat + 1) = some 0x26 ∧ Memory.read s.prog (s.pc.toNat + 2) = some 0xF3 ∧
      decode [0x0F, 0x26, 0xF3] = .ok (.movTr6R32 .ebx, []) := by decide

theorem witness_StepRefusesBytesOutsideTheTable :
    let s := { State.reset with prog := Memory.writeBytes [] 0xFFF0 [0x0F, 0x20, 0xD8] }
    s.pc.toNat + 3 ≤ addressLimit ∧ Memory.read s.prog s.pc.toNat = some 0x0F ∧
      Memory.read s.prog (s.pc.toNat + 1) = some 0x20 ∧ Memory.read s.prog (s.pc.toNat + 2) = some 0xD8 ∧
      ∀ m ∈ [0x0F24F0#24, 0x0F24F8#24, 0x0F26F0#24, 0x0F26F8#24, 0x0F22D8#24],
        (0x0F#8 ++ 0x20#8 ++ 0xD8#8 : BitVec 24) &&& 0xFFFFF8 ≠ m :=
  ⟨by decide, by decide, by decide, by decide, by simp⟩

/-- First clause, at the first pc past the last place. -/
theorem witness_StepRefusesWithoutThreeBytes_wrap :
    addressLimit < ({ State.reset with pc := 0xFFFFFFFE } : State).pc.toNat + 3 := by decide

/-- Second clause, the last of the three bytes missing at the last place. -/
theorem witness_StepRefusesWithoutThreeBytes_missing :
    let s := { State.reset with pc := 0xFFFFFFFD, prog := Memory.writeBytes [] 0xFFFFFFFD [0x0F, 0x26] }
    s.pc.toNat + 3 ≤ addressLimit ∧ ∃ j, j < 3 ∧ Memory.read s.prog (s.pc.toNat + j) = none :=
  ⟨by decide, 2, by decide, by decide⟩

theorem witness_LoadedWordIsFetched :
    ({ State.reset with pc := 0xFFFFFFFD } : State).pc.toNat + 3 ≤ addressLimit ∧ 0 < 0xFFFFFFFD := by decide

theorem witness_TestRegisterMovesNeedLevelZero :
    (atLevel 1 State.reset).mode = .protectedAt 1 ∧ (1 : Fin 4) ≠ 0 ∧
    (atLevel 3 State.reset).mode = .protectedAt 3 ∧ (3 : Fin 4) ≠ 0 := by decide

theorem witness_RealModeRunsAsLevelZero : RealAndLevel0 State.reset (atLevel 0 State.reset) := ⟨rfl, rfl⟩

/-- A step that answers a next state, for the statements about every step. -/
theorem witness_step_next : ∃ t, step (loaded (.movR32Tr6 .eax) (small 0 0 0x10 oneEntry)) = .next t := ⟨_, rfl⟩

theorem witness_StepKeepsModePagingAndProgram : ∃ t, step (loaded (.movTr7R32 .eax) (small 0x10 0 0 oneEntry)) = .next t :=
  ⟨_, rfl⟩

theorem witness_StepMovesPcByThree : ∃ t, step (loaded (.movCr3R32 .eax) (small 0 0 0 oneEntry)) = .next t := ⟨_, rfl⟩

theorem witness_StepMakesFlagsFresh : ∃ t, step (loaded (.movTr6R32 .eax) (small 0xABCDECC1 0 0 oneEntry)) = .next t :=
  ⟨_, rfl⟩

/-- A general register changes. -/
theorem witness_OnlyTheWritersChangeState_regs :
    ∃ t, exec (.movR32Tr7 .eax) (small 0 0 0x10 emptyTlb) = .next t ∧
      t.regs.get .eax ≠ (small 0 0 0x10 emptyTlb).regs.get .eax := by
  refine ⟨_, rfl, ?_⟩
  have h : ∀ (x : BitVec 7) (y : BitVec 2), setField (setField 0x10#32 5 x) 0 y ≠ 0#32 := by decide
  exact h _ _

/-- TR6 and TR7 change, by a lookup. -/
theorem witness_OnlyTheWritersChangeState_tr :
    ∃ t, exec (.movTr6R32 .eax) (small 0xABCDECC1 0 0 oneEntry) = .next t ∧ t.tr6 ≠ 0#32 ∧ t.tr7 ≠ 0#32 :=
  ⟨_, rfl, by decide, by decide⟩

/-- TR7 changes, by a move into it. -/
theorem witness_OnlyTheWritersChangeState_tr7 :
    ∃ t, exec (.movTr7R32 .eax) (small 0x10 0 0 oneEntry) = .next t ∧ t.tr7 ≠ 0#32 := ⟨_, rfl, by decide⟩

/-- A TLB entry changes, by a write to CR3. -/
theorem witness_OnlyTheWritersChangeState_cr3 :
    ∃ t, exec (.movCr3R32 .eax) (small 0 0 0 oneEntry) = .next t ∧ t.tlb.get ⟨2, 6⟩ ≠ oneEntry.get ⟨2, 6⟩ :=
  ⟨_, rfl, by decide⟩

/-- A TLB entry changes, by a TLB write. -/
theorem witness_OnlyTheWritersChangeState_write :
    ∃ t, exec (.movTr6R32 .eax) (small 0xABCDECC0 0 0x12345018 emptyTlb) = .next t ∧
      t.tlb.get ⟨2, Config.tlbIndex 0xABCDE⟩ ≠ emptyTlb.get ⟨2, Config.tlbIndex 0xABCDE⟩ := by
  refine ⟨_, rfl, fun h => ?_⟩
  have h1 := (Tlb.get_set_self emptyTlb ⟨2, Config.tlbIndex 0xABCDE⟩ (entry 0xABCDE 1 0x12345)).symm.trans h
  rw [emptyTlb, State.reset_tlb_get] at h1
  exact absurd h1 (by decide)

/-- The greatest pc that has a next value, at privilege level 0. -/
theorem witness_MovR32Tr6StoresTr6 : CanRun (atLevel 0 { small 0 0 0 emptyTlb with pc := 0xFFFFFFFC }) := by decide

theorem witness_MovR32Tr7StoresTr7 : CanRun (small 0 0 0 emptyTlb) := by decide

theorem witness_TestRegistersReadBack_tr7 :
    ∃ t, exec (.movTr7R32 .eax) (small 0x12345018 0 0 emptyTlb) = .next t ∧ ∃ u, exec (.movR32Tr7 .ebx) t = .next u :=
  ⟨_, rfl, _, rfl⟩

theorem witness_TestRegistersReadBack_tr6 :
    ∃ t, exec (.movTr6R32 .eax) (small 0xABCDECC0 0 0x12345018 emptyTlb) = .next t ∧ tr6C 0xABCDECC0 = 0 ∧
      ∃ u, exec (.movR32Tr6 .ebx) t = .next u := ⟨_, rfl, by decide, _, rfl⟩

/-- PG = 1 and HT = 0 are no obstacle. -/
theorem witness_MovTr7R32SetsTr7 :
    let s := { small 0xFFFFF00C 0 0 emptyTlb with pg := true }
    CanRun s ∧ ∀ b, b ≤ 1 ∨ (5 ≤ b ∧ b ≤ 11) → (s.regs.get .eax).getLsbD b = false := by
  refine ⟨by decide, fun b hb => ?_⟩
  have h : ∀ b : Fin 12, (b.val ≤ 1 ∨ 5 ≤ b.val) → (0xFFFFF00C#32).getLsbD b.val = false := by decide
  exact h ⟨b, by omega⟩ (hb.imp id And.left)

/-- First clause, bits 1 and 4. -/
theorem witness_ReservedBitIsRefused_tr6 :
    State.reset.mode.privileged = true ∧ ((small 0xABCDECC2 0 0 emptyTlb).regs.get .eax).getLsbD 1 = true ∧
    ((small 0xABCDECD0 0 0 emptyTlb).regs.get .eax).getLsbD 4 = true := by decide

/-- Second clause, bits 0, 1, 5 and 11 (T13). -/
theorem witness_ReservedBitIsRefused_tr7 :
    State.reset.mode.privileged = true ∧ ((small 0x12345019 0 0 emptyTlb).regs.get .eax).getLsbD 0 = true ∧
    ((small 0x1234501A 0 0 emptyTlb).regs.get .eax).getLsbD 1 = true ∧
    ((small 0x12345038 0 0 emptyTlb).regs.get .eax).getLsbD 5 = true ∧
    ((small 0x12345818 0 0 emptyTlb).regs.get .eax).getLsbD 11 = true := by decide

theorem witness_PagingOnIsRefused :
    let s := { small 0xABCDECC0 0 0 emptyTlb with pg := true }
    s.mode.privileged = true ∧ s.pg = true ∧ tr6Reserved (s.regs.get .eax) = 0 := by decide

theorem witness_CommandBitSelectsTheCommand :
    let s := small 0xABCDECC0 0xABCDECC1 0x12345018 emptyTlb
    CanCommand .eax s ∧ tr6C (s.regs.get .eax) = 0 ∧ (∃ r, tlbWrite (s.setTr6 (s.regs.get .eax)) = .ok r) ∧
      CanCommand .ebx s ∧ tr6C (s.regs.get .ebx) = 1 := ⟨by decide, by decide, ⟨_, rfl⟩, by decide, by decide⟩

/-- A defined pair, an undefined pair, an entry that matches, and a TLB write that sets one with the pair W undefined (T14). -/
theorem witness_BitPairsFollowTheTable :
    (1 : Bit) ≠ 0 ∧ (0 : Bit) = 0 ∧ pairsDefined 0xABCDECC1 = true ∧
      (entry 0xABCDE 1 0x12345).matchesTag 0xABCDECC1 = true ∧ tr6W 0x22222C80 = tr6Wn 0x22222C80 ∧
      ∃ t, tlbWrite ((small 0 0 0x00002010 emptyTlb).setTr6 0x22222C80) = .ok t :=
  ⟨by decide, by decide, by decide, by decide, by decide, _, rfl⟩

theorem witness_TlbWriteSetsOneEntry :
    let s := small 0xABCDECC0 0 0x12345018 emptyTlb
    CanCommand .eax s ∧ tr6C (s.regs.get .eax) = 0 ∧ tr7Ht s.tr7 = 1 ∧ pairsDefined (s.regs.get .eax) = true ∧
      ∀ l, l ≠ writeLoc (s.regs.get .eax) s.tr7 → ¬ ((s.tlb.get l).init = true ∧ (s.tlb.get l).la = tr6La (s.regs.get .eax) ∧
        (s.tlb.get l).v = tr6V (s.regs.get .eax) ∧ (s.tlb.get l).d = tr6D (s.regs.get .eax) ∧
        (s.tlb.get l).u = tr6U (s.regs.get .eax) ∧ (s.tlb.get l).w = tr6W (s.regs.get .eax)) := by
  refine ⟨by decide, by decide, by decide, by decide, fun l _ h => ?_⟩
  have h1 := h.1
  change (State.reset.tlb.get l).init = true at h1
  rw [State.reset_tlb_get] at h1
  exact absurd h1 (by decide)

/-- An assigned entry of block 3 with the linear address, V, D and U of T14's write, and W as given. -/
def nearDuplicate (w : Bit) : Tlb := emptyTlb.set ⟨3, 2⟩ { entry 0x22222 1 0x00007 with w := w }

theorem nearDuplicate_get (w : Bit) (l : Loc) : (nearDuplicate w).get l =
    if l = ⟨3, 2⟩ then { entry 0x22222 1 0x00007 with w := w } else TlbEntry.unassigned := by
  rw [nearDuplicate, Tlb.get_set, emptyTlb, State.reset_tlb_get]

/-- T14, with another entry that shares all of the tag but W and holds there the other value than the free one: the pair W is
(0, 0), and D and U are defined as 1 and 0. -/
theorem witness_UndefinedPairWritesFreeBit :
    let s := small 0x22222C80 0 0x00002010 (nearDuplicate (~~~Config.draw 1 2))
    let v := s.regs.get .eax
    CanCommand .eax s ∧ tr6C v = 0 ∧ tr7Ht s.tr7 = 1 ∧ tr6W v = tr6Wn v ∧
      ((s.tlb.get ⟨3, 2⟩).init = true ∧ (s.tlb.get ⟨3, 2⟩).la = tr6La v ∧ (s.tlb.get ⟨3, 2⟩).v = tr6V v) ∧
      ∀ l, l ≠ writeLoc v s.tr7 → ¬ ((s.tlb.get l).init = true ∧ (s.tlb.get l).la = tr6La v ∧
        (s.tlb.get l).v = tr6V v ∧ (s.tlb.get l).d = tr6D v ∧ (s.tlb.get l).u = tr6U v ∧
        (s.tlb.get l).w = Config.draw 1 (s.draws + 2)) := by
  refine ⟨by decide, by decide, by decide, by decide, ⟨rfl, by decide, by decide⟩, fun l _ h => ?_⟩
  obtain ⟨hi, -, -, -, -, hw⟩ := h
  change ((nearDuplicate (~~~Config.draw 1 2)).get l).init = true at hi
  change ((nearDuplicate (~~~Config.draw 1 2)).get l).w = Config.draw 1 2 at hw
  rw [nearDuplicate_get] at hi hw
  split at hi
  · rw [if_pos ‹_›] at hw
    have hne : ∀ x : Bit, ~~~x ≠ x := by decide
    exact hne _ hw
  · exact absurd hi (by decide)

theorem witness_WriteWithHtZeroIsRefused :
    let s := small 0x11111AA0 0 0 emptyTlb
    s.mode.privileged = true ∧ s.pg = false ∧ tr6Reserved (s.regs.get .eax) = 0 ∧ tr6C (s.regs.get .eax) = 0 ∧
      tr7Ht s.tr7 = 0 := by decide

/-- T7: TR7 names block 1, and block 2 holds the tag; on an empty TLB the same write is no duplicate. -/
theorem witness_DuplicateTagIsRefused :
    let s := small 0xABCDECC0 0 0x54321014 oneEntry
    CanCommand .eax s ∧ tr6C (s.regs.get .eax) = 0 ∧ tr7Ht s.tr7 = 1 ∧ pairsDefined (s.regs.get .eax) = true ∧
      (⟨2, 6⟩ : Loc) ≠ writeLoc (s.regs.get .eax) s.tr7 ∧ (s.tlb.get ⟨2, 6⟩).init = true ∧
      (s.tlb.get ⟨2, 6⟩).sameTag (entry 0xABCDE 1 0) = true := by
  refine ⟨by decide, by decide, by decide, by decide, fun h => ?_, by decide, by decide⟩
  have h1 : (2 : Fin 4) = 1 := congrArg Loc.block h
  exact absurd h1 (by decide)

/-- The same with an undefined pair: block 3 holds the tag that the free value makes. -/
theorem witness_DuplicateTagIsRefused_free :
    let s := small 0x22222C80 0 0x00002010 (nearDuplicate (Config.draw 1 2))
    let v := s.regs.get .eax
    CanCommand .eax s ∧ tr6C v = 0 ∧ tr7Ht s.tr7 = 1 ∧ tr6W v = tr6Wn v ∧ (⟨3, 2⟩ : Loc) ≠ writeLoc v s.tr7 ∧
      (s.tlb.get ⟨3, 2⟩).init = true ∧ (s.tlb.get ⟨3, 2⟩).la = tr6La v ∧ (s.tlb.get ⟨3, 2⟩).v = tr6V v ∧
      (s.tlb.get ⟨3, 2⟩).d = tr6D v ∧ (s.tlb.get ⟨3, 2⟩).u = tr6U v ∧
      (s.tlb.get ⟨3, 2⟩).w = Config.draw 1 (s.draws + 2) := by
  refine ⟨by decide, by decide, by decide, by decide, fun h => ?_, rfl, by decide, by decide, by decide, by decide, rfl⟩
  exact absurd (congrArg Loc.block h : (3 : Fin 4) = 0) (by decide)

theorem placed_empty : emptyTlb.Placed := by
  intro l h
  rw [emptyTlb, State.reset_tlb_get] at h
  exact absurd h (by decide)

/-- An entry of another block, and a TLB whose assigned entries stand where they belong. -/
theorem witness_WriteStaysInItsBlock :
    ∃ t, exec (.movTr6R32 .eax) (small 0xABCDECC0 0 0x12345018 emptyTlb) = .next t ∧
      (⟨1, 6⟩ : Loc).block.val ≠ (tr7Rep 0x12345018).toNat ∧ (small 0xABCDECC0 0 0x12345018 emptyTlb).tlb.Placed ∧
      (t.tlb.get ⟨2, Config.tlbIndex 0xABCDE⟩).init = true := by
  refine ⟨_, rfl, by decide, placed_empty, ?_⟩
  exact congrArg TlbEntry.init (Tlb.get_set_self emptyTlb ⟨2, Config.tlbIndex 0xABCDE⟩ (entry 0xABCDE 1 0x12345))

/-- An entry that matches, and an assigned entry in a well-kept TLB for the last clause. -/
theorem witness_MatchComparesTheWholeTag :
    pairsDefined 0xABCDECC1 = true ∧ (⟨2, 6⟩ : Loc) ∈ oneEntry.matching 0xABCDECC1 ∧ oneEntry.UnassignedInvalid ∧
      tr6V 0xABCDECC1 = 1 ∧ (oneEntry.get ⟨2, 6⟩).v = tr6V 0xABCDECC1 := by
  refine ⟨by decide, by decide, fun ⟨b, i⟩ => ?_, by decide, by decide⟩
  revert b i; decide

theorem witness_LookupHitReadsTheEntry :
    let s := small 0xABCDECC1 0 0 oneEntry
    CanCommand .eax s ∧ tr6C (s.regs.get .eax) = 1 ∧ s.tlb.Ordinary (s.regs.get .eax) ∧
      (s.tlb.get ⟨2, 6⟩).matchesTag (s.regs.get .eax) = true ∧
      ∀ l', (s.tlb.get l').matchesTag (s.regs.get .eax) = true → l' = ⟨2, 6⟩ := by
  refine ⟨by decide, by decide, ⟨by decide, fun h => absurd h (by decide)⟩, by decide, fun ⟨b, i⟩ => ?_⟩
  revert b i; decide

/-- T15's sort of lookup: V = 0 with all 32 entries assigned. -/
theorem witness_LookupHitReadsTheEntry_v0 :
    let s := small 0x001004C1 0 0 (fullTlb.set ⟨0, 0⟩ (entry 0x100 0 0x00777))
    CanCommand .eax s ∧ tr6C (s.regs.get .eax) = 1 ∧ tr6V (s.regs.get .eax) = 0 ∧ s.tlb.Ordinary (s.regs.get .eax) ∧
      (s.tlb.get ⟨0, 0⟩).matchesTag (s.regs.get .eax) = true ∧
      ∀ l', (s.tlb.get l').matchesTag (s.regs.get .eax) = true → l' = ⟨0, 0⟩ := by
  refine ⟨by decide, by decide, by decide, ⟨by decide, fun _ ⟨b, i⟩ => ?_⟩, by decide, fun ⟨b, i⟩ => ?_⟩
  · revert b i; decide
  · revert b i; decide

/-- A lookup of each of the three kinds. -/
theorem witness_LookupLeavesTheRest :
    tr6C 0xABCDECC1 = 1 ∧ (∃ t, exec (.movTr6R32 .eax) (small 0xABCDECC1 0 0 oneEntry) = .next t) ∧
    tr6C 0xABCDEAC1 = 1 ∧ (∃ t, exec (.movTr6R32 .eax) (small 0xABCDEAC1 0 0 oneEntry) = .next t) ∧
    tr6C 0xABCDEEC1 = 1 ∧ ∃ t, exec (.movTr6R32 .eax) (small 0xABCDEEC1 0 0 oneEntry) = .next t :=
  ⟨by decide, ⟨_, rfl⟩, by decide, ⟨_, rfl⟩, by decide, _, rfl⟩

/-- T3: the entry differs in D. -/
theorem witness_LookupMissClearsHt :
    let s := small 0xABCDEAC1 0 0 oneEntry
    CanCommand .eax s ∧ tr6C (s.regs.get .eax) = 1 ∧ s.tlb.Ordinary (s.regs.get .eax) ∧
      ∀ l, (s.tlb.get l).matchesTag (s.regs.get .eax) = false := by
  refine ⟨by decide, by decide, ⟨by decide, fun h => absurd h (by decide)⟩, fun ⟨b, i⟩ => ?_⟩
  revert b i; decide

/-- T5, and its counterpart for W: each of the three pairs undefined. -/
theorem witness_UnpredictableLookupIsFree_pairs :
    (let s := small 0xABCDEEC1 0 0 oneEntry
     CanCommand .eax s ∧ tr6C (s.regs.get .eax) = 1 ∧ tr6D (s.regs.get .eax) = tr6Dn (s.regs.get .eax)) ∧
    (let s := small 0xABCDEC41 0 0 oneEntry
     CanCommand .eax s ∧ tr6C (s.regs.get .eax) = 1 ∧ tr6U (s.regs.get .eax) = tr6Un (s.regs.get .eax)) ∧
    (let s := small 0xABCDECE1 0 0 oneEntry
     CanCommand .eax s ∧ tr6C (s.regs.get .eax) = 1 ∧ tr6W (s.regs.get .eax) = tr6Wn (s.regs.get .eax)) := by decide

/-- T4: V = 0 while an entry is unassigned. -/
theorem witness_UnpredictableLookupIsFree_v0 :
    let s := small 0xABCDE4C1 0 0 oneEntry
    CanCommand .eax s ∧ tr6C (s.regs.get .eax) = 1 ∧ tr6V (s.regs.get .eax) = 0 ∧ (s.tlb.get ⟨0, 0⟩).init = false := by
  decide

/-- Two entries match. -/
theorem witness_UnpredictableLookupIsFree_two :
    let s := small 0xABCDECC1 0 0 twoEntries
    CanCommand .eax s ∧ tr6C (s.regs.get .eax) = 1 ∧ (⟨1, 6⟩ : Loc) ≠ ⟨2, 6⟩ ∧
      (s.tlb.get ⟨1, 6⟩).matchesTag (s.regs.get .eax) = true ∧ (s.tlb.get ⟨2, 6⟩).matchesTag (s.regs.get .eax) = true := by
  decide

/-- The two lookups of the statement also answer a next state. -/
theorem witness_LookupDoesNotReadTr7 :
    let s := small 0xABCDECC1 0 0 oneEntry
    tr6C (s.regs.get .eax) = 1 ∧ (∃ t, exec (.movTr6R32 .eax) s = .next t) ∧
      ∃ t, exec (.movTr6R32 .eax) (s.setTr7 0xFFFFFFFF) = .next t := ⟨by decide, ⟨_, rfl⟩, _, rfl⟩

/-- A TLB with one entry at its place, whatever `Config.tlbIndex` is. -/
def placedTlb : Tlb := emptyTlb.set ⟨2, Config.tlbIndex 0xABCDE⟩ (entry 0xABCDE 1 0x12345)

theorem placedTlb_get (l : Loc) : placedTlb.get l =
    if l = ⟨2, Config.tlbIndex 0xABCDE⟩ then entry 0xABCDE 1 0x12345 else TlbEntry.unassigned := by
  rw [placedTlb, Tlb.get_set, emptyTlb, State.reset_tlb_get]

/-- The invariant holds of a state with an assigned entry. -/
theorem inv_placed (x y : Word) : (small x y 0 placedTlb).Inv where
  progWf := rfl
  unassignedInvalid l h := by
    change (placedTlb.get l).init = false at h
    change (placedTlb.get l).v = 0
    rw [placedTlb_get] at h ⊢
    split at h
    · exact absurd h (by decide)
    · rw [if_neg ‹_›]; rfl
  placed l h := by
    change (placedTlb.get l).init = true at h
    change l.entry = Config.tlbIndex (placedTlb.get l).la
    rw [placedTlb_get] at h ⊢
    split at h
    · subst l; rw [if_pos rfl]; rfl
    · exact absurd h (by decide)
  validTagsDiffer l l' hne h h' := by
    change (placedTlb.get l).init = true at h
    change (placedTlb.get l').init = true at h'
    rw [placedTlb_get] at h h'
    split at h
    · split at h'
      · exact absurd (‹l = _›.trans ‹l' = _›.symm) hne
      · exact absurd h' (by decide)
    · exact absurd h (by decide)
  reservedClear := by change tr6Writable 0 = true ∧ tr7Writable 0 = true; decide

/-- A lookup that hits, and one that misses. -/
theorem witness_ValidLookupHitsOrMisses :
    let s := small 0xABCDECC1 0xABCDEAC1 0 placedTlb
    s.Inv ∧ CanCommand .eax s ∧ tr6C (s.regs.get .eax) = 1 ∧ pairsDefined (s.regs.get .eax) = true ∧
      tr6V (s.regs.get .eax) = 1 ∧ (s.tlb.get ⟨2, Config.tlbIndex 0xABCDE⟩).matchesTag (s.regs.get .eax) = true ∧
      CanCommand .ebx s ∧ tr6C (s.regs.get .ebx) = 1 ∧ pairsDefined (s.regs.get .ebx) = true ∧
      tr6V (s.regs.get .ebx) = 1 := by
  refine ⟨inv_placed _ _, by decide, by decide, by decide, by decide, ?_, by decide, by decide, by decide, by decide⟩
  change (placedTlb.get _).matchesTag 0xABCDECC1 = true
  rw [placedTlb_get, if_pos rfl]
  decide

theorem witness_MovCr3ClearsEveryValidBit :
    let s := small 0 0 0 oneEntry
    CanRun s ∧ s.pg = false := by decide

/-- P1: the second alternative of the last hypothesis is not needed with V = 1. -/
theorem witness_WriteThenLookupHits_v1 :
    let s := small 0xABCDECC0 0xABCDECC1 0x12345018 emptyTlb
    let v := s.regs.get .eax
    tr6C v = 0 ∧ pairsDefined v = true ∧ ∃ t, exec (.movTr6R32 .eax) s = .next t ∧
      CanRun t ∧ t.pg = false ∧ t.regs.get .ebx = v ||| 1 ∧ tr6V v = 1 :=
  ⟨by decide, by decide, _, rfl, by decide, rfl, by decide, by decide⟩

/-- With V = 0: all 32 entries are assigned before the write, and so after it. -/
theorem witness_WriteThenLookupHits_all :
    let s := small 0x007774C0 0x007774C1 0x12345018 fullTlb
    let v := s.regs.get .eax
    tr6C v = 0 ∧ pairsDefined v = true ∧ ∃ t, exec (.movTr6R32 .eax) s = .next t ∧
      CanRun t ∧ t.pg = false ∧ t.regs.get .ebx = v ||| 1 ∧ tr6V v = 0 ∧ ∀ l, (t.tlb.get l).init = true := by
  refine ⟨by decide, by decide, _, rfl, by decide, rfl, by decide, by decide, fun l => ?_⟩
  change ((fullTlb.set ⟨2, Config.tlbIndex 0x00777⟩ _).get l).init = true
  rw [Tlb.get_set]
  split
  · rfl
  · obtain ⟨b, i⟩ := l
    have h : ∀ b i, (fullTlb.get ⟨b, i⟩).init = true := by decide
    exact h b i

/-- P2, with a lookup for the tag of the entry, and nothing in between. -/
theorem witness_LookupAfterCr3Misses :
    ∃ t, exec (.movCr3R32 .eax) (small 0 0xABCDECC1 0 oneEntry) = .next t ∧
      LeadsWithoutValidWrite [] t.tlb t.tlb ∧ CanCommand .ebx t ∧
      tr6C (t.regs.get .ebx) = 1 ∧ pairsDefined (t.regs.get .ebx) = true ∧ tr6V (t.regs.get .ebx) = 1 :=
  ⟨_, rfl, rfl, by decide, by decide, by decide, by decide⟩

/-- The same with a TLB write with V = 0 in between. -/
theorem witness_LookupAfterCr3Misses_write :
    let s := small 0xABCDE4C0 0xABCDECC1 0x12345018 emptyTlb
    ∃ t, exec (.movCr3R32 .eax) s = .next t ∧ ∃ u, exec (.movTr6R32 .eax) t = .next u ∧
      LeadsWithoutValidWrite [.movTr6R32 .eax] t.tlb u.tlb ∧ CanCommand .ebx u ∧
      tr6C (u.regs.get .ebx) = 1 ∧ pairsDefined (u.regs.get .ebx) = true ∧ tr6V (u.regs.get .ebx) = 1 := by
  refine ⟨_, rfl, _, rfl, ⟨_, _, rfl, rfl, fun ⟨k, hk, _, hv⟩ => ?_, rfl⟩, by decide, by decide, by decide, by decide⟩
  cases hk
  exact absurd hv (by decide)

/-- An assigned entry whose valid bit is 0, and a lookup for its linear address. -/
theorem witness_LookupMissesWhileNoEntryIsValid :
    let s := small 0xABCDECC1 0 0 (oneEntry.clearValid)
    (∀ l, (s.tlb.get l).v = 0) ∧ CanCommand .eax s ∧ tr6C (s.regs.get .eax) = 1 ∧
      pairsDefined (s.regs.get .eax) = true ∧ tr6V (s.regs.get .eax) = 1 := by
  refine ⟨fun l => ?_, by decide, by decide, by decide, by decide⟩
  exact congrArg TlbEntry.v (Tlb.get_clearValid oneEntry l)

/-- The two ends of the range, 0xFFFFFFFD and 0xFFFFFFFF, and each of the five instructions. -/
theorem witness_EndingAtTheLimitIsRefused :
    let s := { small 0x10 0xABCDECC1 0 oneEntry with pc := 0xFFFFFFFD }
    addressLimit ≤ s.pc.toNat + 3 ∧ addressLimit ≤ (s.setPc 0xFFFFFFFF).pc.toNat + 3 ∧
      (∃ t, exec (.movR32Tr6 .eax) (s.setPc 0) = .next t) ∧ (∃ t, exec (.movR32Tr7 .eax) (s.setPc 0) = .next t) ∧
      (∃ t, exec (.movTr6R32 .ebx) (s.setPc 0) = .next t) ∧ (∃ t, exec (.movTr7R32 .eax) (s.setPc 0) = .next t) ∧
      ∃ t, exec (.movCr3R32 .eax) (s.setPc 0) = .next t :=
  ⟨by decide, by decide, ⟨_, rfl⟩, ⟨_, rfl⟩, ⟨_, rfl⟩, ⟨_, rfl⟩, _, rfl⟩

theorem witness_NoEntryBecomesValidUnwritten :
    (∀ l, ((small 0xABCDECC0 0 0x12345018 emptyTlb).tlb.get l).v = 0) ∧
    ∃ t, exec (.movTr6R32 .eax) (small 0xABCDECC0 0 0x12345018 emptyTlb) = .next t ∧ ∃ l, (t.tlb.get l).v = 1 := by
  refine ⟨fun l => ?_, _, rfl, ⟨2, Config.tlbIndex 0xABCDE⟩, ?_⟩
  · change (State.reset.tlb.get l).v = 0
    rw [State.reset_tlb_get]; rfl
  · exact congrArg TlbEntry.v (Tlb.get_set_self emptyTlb ⟨2, Config.tlbIndex 0xABCDE⟩ (entry 0xABCDE 1 0x12345))

/-- P6. -/
theorem witness_WriteAfterMissNeedsTr7Reloaded :
    let s := small 0xABCDECC1 0xABCDECC0 0x12345018 emptyTlb
    ∃ t, exec (.movTr6R32 .eax) s = .next t ∧ tr6C (s.regs.get .eax) = 1 ∧ s.tlb.Ordinary (s.regs.get .eax) ∧
      (∀ l, (s.tlb.get l).matchesTag (s.regs.get .eax) = false) ∧
      t.mode.privileged = true ∧ t.pg = false ∧ tr6Writable (t.regs.get .ebx) = true ∧ tr6C (t.regs.get .ebx) = 0 := by
  refine ⟨_, rfl, by decide, ⟨by decide, fun h => absurd h (by decide)⟩, fun l => ?_, by decide, rfl, by decide, by decide⟩
  change (State.reset.tlb.get l).matchesTag _ = false
  rw [State.reset_tlb_get]; rfl

/-- A state with the invariant whose step answers a next state. -/
theorem witness_StepKeepsTheInv :
    (loaded (.movCr3R32 .eax) (small 0 0 0 placedTlb)).Inv ∧
      ∃ t, step (loaded (.movCr3R32 .eax) (small 0 0 0 placedTlb)) = .next t := by
  refine ⟨{ inv_placed 0 0 with progWf := ?_ }, _, rfl⟩
  decide

/-- The two states differ in an unassigned entry. -/
theorem witness_UnassignedFieldsAreNotRead :
    let s := loaded (.movTr6R32 .eax) (small 0xABCDECC1 0 0 oneEntry)
    let t := s.setTlb (s.tlb.set ⟨0, 0⟩ { TlbEntry.unassigned with la := 0xABCDE, d := 1 })
    SameButUnassigned s t ∧ s ≠ t := by
  refine ⟨⟨rfl, fun ⟨b, i⟩ => ?_⟩, fun h => ?_⟩
  · revert b i; decide
  · have h1 := congrArg (fun x : State => (x.tlb.get ⟨0, 0⟩).la) h
    exact absurd h1 (by decide)

/-- The two states differ in every reserved position. -/
theorem witness_ReservedPositionsAreNotRead :
    let s := loaded (.movR32Tr7 .eax) (small 0 0 0x12345018 oneEntry)
    let t := { s with tr6 := 0x1E, tr7 := 0x12345FFB }
    SameButReserved s t ∧ s ≠ t := by
  refine ⟨⟨rfl, by decide, by decide⟩, fun h => ?_⟩
  exact absurd (congrArg State.tr7 h) (by decide)

end Sys2Proof.Tests
end

section
/-! The privilege check of the instructions (40_mov_test_registers.md R52, R57 (2)). -/

namespace Sys2Proof.Proofs.Privilege

open Sys2Proof Sys2Proof.Machine

/-- Protected mode at a level other than 0 may not run the instructions. -/
theorem not_privileged_of_level_ne_zero {m : Mode} {cpl : Fin 4} (hm : m = .protectedAt cpl) (hcpl : cpl ≠ 0) :
    ¬ m.privileged = true := by
  subst hm
  simpa [Mode.privileged] using hcpl

/-- The privilege check stands before every other check of each instruction, so without privilege the answer is GP(0) whatever
the operand, the reserved positions, PG and the TLB hold. -/
theorem exec_of_not_privileged (i : Instr) {s : State} (h : ¬ s.mode.privileged = true) : exec i s = raiseGp0 := by
  cases i with
  | movR32Tr6 k => rw [exec_movR32Tr6, execMovR32Tr6, if_neg h]
  | movR32Tr7 k => rw [exec_movR32Tr7, execMovR32Tr7, if_neg h]
  | movTr6R32 k => rw [exec_movTr6R32, execMovTr6R32, if_neg h]
  | movTr7R32 k => rw [exec_movTr7R32, execMovTr7R32, if_neg h]
  | movCr3R32 k => rw [exec_movCr3R32, execMovCr3R32, if_neg h]

/-- Settles O10: an instance, with error code 0, of what every instruction without privilege answers. -/
theorem testRegisterMovesNeedLevelZero : Obligations.TestRegisterMovesNeedLevelZero := by
  intro k s cpl hmode hcpl i _
  exact ⟨0, exec_of_not_privileged i (not_privileged_of_level_ne_zero hmode hcpl)⟩

end Sys2Proof.Proofs.Privilege
end

section
/-! The command that `MOV TR6,r32` performs, and the match condition of the TLB lookup (41_tlb_test_operations.md R60, R76). -/

namespace Sys2Proof.Proofs.TlbCommand

open Sys2Proof Sys2Proof.Machine

/-! The command (R60). -/

/-- Where the command may be performed and answers, the MOV completes with the state the command leaves: after it only the
flags and pc change. -/
theorem exec_movTr6R32_of_command {k : Reg32} {s r : State} (hc : CanCommand k s)
    (hr : tlbCommand (s.setTr6 (s.regs.get k)) = .ok r) :
    exec (.movTr6R32 k) s = .next (r.drawFlags.setPc (s.pc + 3)) := by
  obtain ⟨⟨hpriv, hroom⟩, hpg, hw⟩ := hc
  obtain ⟨-, hpc, -⟩ := tlbCommand_frame hr
  rw [State.setTr6_pc] at hpc
  rw [exec_movTr6R32, execMovTr6R32_eq hpriv hpg hw, hr, ← hpc]
  exact complete_eq (hpc ▸ hroom)

/-- Settles O24: the command bit of the value moved in says which command answers, and completion keeps the TLB, TR6 and TR7
that the command left. -/
theorem commandBitSelectsTheCommand : Obligations.CommandBitSelectsTheCommand := by
  intro k s hc
  refine ⟨fun hbit r hr => ?write, fun hbit => ?lookup⟩
  case write => exact ⟨_, exec_movTr6R32_of_command hc ((tlbCommand_write hbit).trans hr), rfl, rfl, rfl⟩
  case lookup => exact ⟨_, exec_movTr6R32_of_command hc (tlbCommand_lookup hbit), rfl, rfl, rfl⟩

/-! The match condition (R76). -/

/-- In a defined pair the first bit is the complement of the second. -/
theorem fst_eq_compl_of_pairDefined {x xn : Bit} (h : pairDefined x xn = true) : x = ~~~xn := by
  rw [pairDefined_compl h, BitVec.not_not]

/-- With defined pairs the attribute bits asked for can be read off the complement positions of TR6. -/
theorem matchesTag_iff_complements (e : TlbEntry) {v : Word} (h : pairsDefined v = true) :
    e.matchesTag v = true ↔ e.init = true ∧ e.la = tr6La v ∧ e.v = tr6V v ∧
      e.d = ~~~(tr6Dn v) ∧ e.u = ~~~(tr6Un v) ∧ e.w = ~~~(tr6Wn v) := by
  obtain ⟨hd, hu, hw⟩ := (pairsDefined_iff v).1 h
  rw [TlbEntry.matchesTag_iff, fst_eq_compl_of_pairDefined hd, fst_eq_compl_of_pairDefined hu,
    fst_eq_compl_of_pairDefined hw]

/-- Where unassigned entries have valid bit 0, an entry whose valid bit is 1 is assigned (R12). -/
theorem init_of_valid {t : Tlb} (ht : t.UnassignedInvalid) {l : Loc} (hv : (t.get l).v = 1) :
    (t.get l).init = true := by
  by_contra hinit
  have hzero : (t.get l).v = 0 := ht l (Bool.eq_false_iff.2 hinit)
  exact absurd (hv.symm.trans hzero) (by decide)

/-- Settles O31: membership in the matching set is the match condition of the entry, read through the complement bits; an
uninitialised entry fails it at the valid bit. -/
theorem matchComparesTheWholeTag : Obligations.MatchComparesTheWholeTag := by
  intro t v l hpairs
  exact ⟨(t.mem_matching v l).trans (matchesTag_iff_complements _ hpairs),
    fun ht hone hv => init_of_valid ht (hv.trans hone)⟩

end Sys2Proof.Proofs.TlbCommand
end

section
/-! The decoder and the encoder against each other and against the opcode table (30_encoding.md R42 to R46). -/

namespace Sys2Proof.Proofs.Decoder

open Sys2Proof Sys2Proof.Machine

/-! The fields of three bytes and the instruction they name. -/

/-- The fields name an instruction exactly when they are the fields of its encoding. -/
theorem format_instr_eq_ok_iff (f : Format) (i : Instr) : f.instr = .ok i ↔ f = i.format := by
  constructor
  · intro h
    obtain ⟨e, o, m, r, k⟩ := f
    unfold Format.instr at h
    split at h
    case isFalse => cases h
    case isTrue hescape =>
      obtain ⟨rfl, rfl⟩ := hescape
      iterate 5
        split at h
        case isTrue hrow => obtain ⟨rfl, rfl⟩ := hrow; cases h; simp [Instr.format]
      cases h
  · rintro rfl
    exact i.format_instr

/-- Three bytes decode to the instruction whose fields they hold, and the bytes after them are left. -/
theorem decode_eq_ok_iff (b0 b1 b2 : Byte) (rest rest' : List Byte) (i : Instr) :
    decode (b0 :: b1 :: b2 :: rest) = .ok (i, rest') ↔ splitFormat b0 b1 b2 = i.format ∧ rest' = rest := by
  rw [← format_instr_eq_ok_iff, decode]
  cases (splitFormat b0 b1 b2).instr <;> simp [eq_comm]

/-- Every refusal of the decoder is the one refusal it has. -/
theorem decode_eq_error_iff (bytes : List Byte) :
    decode bytes = .error .notInScope ↔ ∀ i rest, decode bytes ≠ .ok (i, rest) := by
  rcases decode bytes with r | ⟨i, rest⟩
  · cases r; simp
  · simp

/-- Fewer than three bytes hold no instruction. -/
theorem decode_of_length_lt_three {bytes : List Byte} (h : bytes.length < 3) : decode bytes = .error .notInScope := by
  match bytes, h with
  | [], _ => rfl
  | [_], _ => rfl
  | [_, _], _ => rfl

/-- What decodes has three bytes at its head. -/
theorem decode_ok_cons {bytes rest : List Byte} {i : Instr} (h : decode bytes = .ok (i, rest)) :
    ∃ b0 b1 b2, bytes = b0 :: b1 :: b2 :: rest ∧ splitFormat b0 b1 b2 = i.format := by
  match bytes, h with
  | b0 :: b1 :: b2 :: tail, h =>
    obtain ⟨hf, rfl⟩ := (decode_eq_ok_iff _ _ _ _ _ _).1 h
    exact ⟨b0, b1, b2, rfl, hf⟩

/-! Decoding and encoding. -/

/-- Settles O1: the fields of the bytes of an instruction's format are that format. -/
theorem decodeOfEncodeIsTheInstr : Obligations.DecodeOfEncodeIsTheInstr := by
  intro i rest
  exact (decode_eq_ok_iff _ _ _ _ _ _).2 ⟨splitFormat_bytes _ _ _ _ _, rfl⟩

/-- Settles O2: the bytes of the fields of three bytes are those bytes. -/
theorem encodeOfDecodeIsTheBytes : Obligations.EncodeOfDecodeIsTheBytes := by
  intro bytes rest i h
  obtain ⟨b0, b1, b2, rfl, hf⟩ := decode_ok_cons h
  rw [encode, ← hf, bytes_splitFormat]
  rfl

/-! The opcode table (spec/opcode_table.json): bits 23:3 of the three bytes name the row, bits 2:0 the register. -/

/-- Bits 23:3 of the row of an instruction. -/
def rowBits : Instr → BitVec 21
  | .movR32Tr6 _ => 0x01E49E
  | .movR32Tr7 _ => 0x01E49F
  | .movTr6R32 _ => 0x01E4DE
  | .movTr7R32 _ => 0x01E4DF
  | .movCr3R32 _ => 0x01E45B

/-- The operand of an instruction. -/
def operand : Instr → Reg32
  | .movR32Tr6 k | .movR32Tr7 k | .movTr6R32 k | .movTr7R32 k | .movCr3R32 k => k

/-- The bytes of an encoding, as one word, are the row and the register's number. -/
theorem format_word_eq (i : Instr) :
    (i.format.escape ++ i.format.op ++ (i.format.mod ++ i.format.reg ++ i.format.rm) : BitVec 24) =
      rowBits i ++ (operand i).number := by
  cases i <;> rename_i k <;> cases k <;> rfl

/-- Appended words are equal only part by part. -/
theorem append_injective {m n : Nat} {x x' : BitVec m} {y y' : BitVec n} (h : x ++ y = x' ++ y') : x = x' ∧ y = y' := by
  have hx := congrArg (BitVec.extractLsb' n m) h
  have hy := congrArg (BitVec.extractLsb' 0 n) h
  rw [BitVec.extractLsb'_append_eq_left, BitVec.extractLsb'_append_eq_left] at hx
  rw [BitVec.extractLsb'_append_eq_right, BitVec.extractLsb'_append_eq_right] at hy
  exact ⟨hx, hy⟩

/-- Three bytes hold the fields of an instruction exactly when, as one word, they are its row and register. -/
theorem splitFormat_eq_format_iff (b0 b1 b2 : Byte) (i : Instr) :
    splitFormat b0 b1 b2 = i.format ↔ (b0 ++ b1 ++ b2 : BitVec 24) = rowBits i ++ (operand i).number := by
  rw [← format_word_eq]
  constructor
  · intro h
    have hbytes := bytes_splitFormat b0 b1 b2
    rw [h, Format.bytes] at hbytes
    injection hbytes with h0 hbytes
    injection hbytes with h1 hbytes
    injection hbytes with h2 _
    rw [h0, h1, h2]
  · intro h
    obtain ⟨h01, h2⟩ := append_injective h
    obtain ⟨h0, h1⟩ := append_injective h01
    rw [h0, h1, h2]
    exact splitFormat_bytes _ _ _ _ _

/-- A word has given bits 23:3 exactly when masking the others off gives them, and given bits 2:0 exactly when these are
its low field. -/
theorem word_eq_append_iff (w : BitVec 24) (m : BitVec 21) (n : BitVec 3) :
    w = m ++ n ↔ w &&& 0xFFFFF8#24 = m ++ 0#3 ∧ w.extractLsb' 0 3 = n := by
  have hmask : ∀ (a : BitVec 21) (b : BitVec 3), (a ++ b) &&& 0xFFFFF8#24 = a ++ 0#3 := by
    intro a b
    rw [show (0xFFFFF8#24) = BitVec.allOnes 21 ++ 0#3 from rfl, BitVec.and_append, BitVec.and_allOnes, BitVec.and_zero]
  have hsplit : w.extractLsb' 3 21 ++ w.extractLsb' 0 3 = w := BitVec.extractLsb'_append_extractLsb' (w := 21)
  constructor
  · rintro rfl
    exact ⟨hmask m n, BitVec.extractLsb'_append_eq_right⟩
  · rintro ⟨hm, rfl⟩
    rw [← hsplit, hmask] at hm
    rw [← (append_injective hm).1]
    exact hsplit.symm

/-- The match word of an instruction's row. -/
def rowMatch : Instr → BitVec 24
  | .movR32Tr6 _ => 0x0F24F0
  | .movR32Tr7 _ => 0x0F24F8
  | .movTr6R32 _ => 0x0F26F0
  | .movTr7R32 _ => 0x0F26F8
  | .movCr3R32 _ => 0x0F22D8

/-- The match word holds the row's bits and the number 0. -/
theorem rowMatch_eq (i : Instr) : rowMatch i = rowBits i ++ 0#3 := by
  cases i with
  | movR32Tr6 => exact (by decide : 0x0F24F0#24 = 0x01E49E#21 ++ 0#3)
  | movR32Tr7 => exact (by decide : 0x0F24F8#24 = 0x01E49F#21 ++ 0#3)
  | movTr6R32 => exact (by decide : 0x0F26F0#24 = 0x01E4DE#21 ++ 0#3)
  | movTr7R32 => exact (by decide : 0x0F26F8#24 = 0x01E4DF#21 ++ 0#3)
  | movCr3R32 => exact (by decide : 0x0F22D8#24 = 0x01E45B#21 ++ 0#3)

/-- Three bytes decode to an instruction exactly when they match its row under the mask of the table and name its
register. -/
theorem decode_eq_ok_iff_row (b0 b1 b2 : Byte) (rest : List Byte) (i : Instr) :
    decode (b0 :: b1 :: b2 :: rest) = .ok (i, rest) ↔
      (b0 ++ b1 ++ b2 : BitVec 24) &&& 0xFFFFF8 = rowMatch i ∧
        (b0 ++ b1 ++ b2 : BitVec 24).extractLsb' 0 3 = (operand i).number := by
  rw [decode_eq_ok_iff, splitFormat_eq_format_iff, word_eq_append_iff, and_iff_left rfl, rowMatch_eq]
  rfl

/-- The instruction of the same row with another operand. -/
def withOperand (k : Reg32) : Instr → Instr
  | .movR32Tr6 _ => .movR32Tr6 k
  | .movR32Tr7 _ => .movR32Tr7 k
  | .movTr6R32 _ => .movTr6R32 k
  | .movTr7R32 _ => .movTr7R32 k
  | .movCr3R32 _ => .movCr3R32 k

theorem operand_withOperand (k : Reg32) (i : Instr) : operand (withOperand k i) = k := by cases i <;> rfl

theorem rowMatch_withOperand (k : Reg32) (i : Instr) : rowMatch (withOperand k i) = rowMatch i := by cases i <;> rfl

/-- Three bytes are refused exactly when they match no row: in a row that matches, every register number names a
register. -/
theorem decode_eq_error_iff_no_row (b0 b1 b2 : Byte) (rest : List Byte) :
    decode (b0 :: b1 :: b2 :: rest) = .error .notInScope ↔
      ∀ i, (b0 ++ b1 ++ b2 : BitVec 24) &&& 0xFFFFF8 ≠ rowMatch i := by
  rw [decode_eq_error_iff]
  constructor
  · intro h i hrow
    obtain ⟨k, hk⟩ : ∃ k : Reg32, k.number = (b0 ++ b1 ++ b2 : BitVec 24).extractLsb' 0 3 :=
      ⟨.ofNumber _, Reg32.number_ofNumber _⟩
    refine h (withOperand k i) rest ((decode_eq_ok_iff_row _ _ _ _ _).2 ⟨?_, ?_⟩)
    · rw [rowMatch_withOperand, hrow]
    · rw [operand_withOperand, hk]
  · intro h i rest' hi
    obtain ⟨-, rfl⟩ := (decode_eq_ok_iff _ _ _ _ _ _).1 hi
    exact h i ((decode_eq_ok_iff_row _ _ _ _ _).1 hi).1

/-- The five match words of the table. -/
theorem forall_rowMatch_iff (P : BitVec 24 → Prop) : (∀ i, P (rowMatch i)) ↔
    P 0x0F24F0 ∧ P 0x0F24F8 ∧ P 0x0F26F0 ∧ P 0x0F26F8 ∧ P 0x0F22D8 := by
  constructor
  · intro h
    exact ⟨h (.movR32Tr6 .eax), h (.movR32Tr7 .eax), h (.movTr6R32 .eax), h (.movTr7R32 .eax), h (.movCr3R32 .eax)⟩
  · rintro ⟨h1, h2, h3, h4, h5⟩ i
    cases i with
    | movR32Tr6 => exact h1
    | movR32Tr7 => exact h2
    | movTr6R32 => exact h3
    | movTr7R32 => exact h4
    | movCr3R32 => exact h5

/-- Settles O3: `decode_eq_ok_iff_row` at each of the five rows, and the two ways to be refused. -/
theorem decodeFollowsOpcodeTable : Obligations.DecodeFollowsOpcodeTable := by
  refine ⟨fun b0 b1 b2 rest k => ?_, fun bytes => decode_of_length_lt_three⟩
  have hrow := decode_eq_ok_iff_row b0 b1 b2 rest
  exact ⟨hrow (.movR32Tr6 k), hrow (.movR32Tr7 k), hrow (.movTr6R32 k), hrow (.movTr7R32 k), hrow (.movCr3R32 k),
    (decode_eq_error_iff_no_row b0 b1 b2 rest).trans (forall_rowMatch_iff _)⟩

/-! The field checks. -/

/-- The checks of WellFormed.lean, one for each field. -/
theorem wellFormed_iff (f : Format) : f.wellFormed = true ↔ f.escape = 0x0F#8 ∧ f.mod = 3#2 ∧
    ((f.op = 0x24#8 ∨ f.op = 0x26#8) ∧ (f.reg = 6#3 ∨ f.reg = 7#3) ∨ f.op = 0x22#8 ∧ f.reg = 3#3) := by
  simp only [Format.wellFormed, Format.escapeOk, Format.opOk, Format.modOk, Format.regOk, Bool.and_eq_true,
    Bool.or_eq_true, beq_iff_eq]
  by_cases hop : f.op = 0x22#8
  · simp [hop, and_assoc]
  · simp [hop]
    tauto

/-- The fields pass every check exactly when they are those of an instruction's encoding. -/
theorem wellFormed_iff_exists_format (f : Format) : f.wellFormed = true ↔ ∃ i : Instr, f = i.format := by
  constructor
  · intro h
    obtain ⟨e, o, m, r, k⟩ := f
    have hk := Reg32.number_ofNumber k
    obtain ⟨he, hm, ⟨ho | ho, hr | hr⟩ | ⟨ho, hr⟩⟩ := (wellFormed_iff _).1 h <;> simp only at he hm ho hr <;>
      subst e m o r
    · exact ⟨.movR32Tr6 (.ofNumber k), by rw [Instr.format, hk]; rfl⟩
    · exact ⟨.movR32Tr7 (.ofNumber k), by rw [Instr.format, hk]; rfl⟩
    · exact ⟨.movTr6R32 (.ofNumber k), by rw [Instr.format, hk]; rfl⟩
    · exact ⟨.movTr7R32 (.ofNumber k), by rw [Instr.format, hk]; rfl⟩
    · exact ⟨.movCr3R32 (.ofNumber k), by rw [Instr.format, hk]; rfl⟩
  · rintro ⟨i, rfl⟩
    cases i with
    | movR32Tr6 k => exact (Laws.Encoding.movR32Tr6 k).1
    | movR32Tr7 k => exact (Laws.Encoding.movR32Tr7 k).1
    | movTr6R32 k => exact (Laws.Encoding.movTr6R32 k).1
    | movTr7R32 k => exact (Laws.Encoding.movTr7R32 k).1
    | movCr3R32 k => exact (Laws.Encoding.movCr3R32 k).1

/-- Settles O5: both sides say that the fields are those of some instruction's encoding. -/
theorem decodeAcceptsExactlyTheWellFormed : Obligations.DecodeAcceptsExactlyTheWellFormed := by
  intro b0 b1 b2 rest
  rw [wellFormed_iff_exists_format]
  exact exists_congr fun i => (decode_eq_ok_iff _ _ _ _ _ _).trans (and_iff_left rfl)

/-- Settles O4: the words are evaluated. -/
theorem decodeSampleWords : Obligations.DecodeSampleWords := by
  unfold Obligations.DecodeSampleWords
  decide

end Sys2Proof.Proofs.Decoder
end

section
/-! What an instruction does between the privilege check and its completion, said once for all five
(40_mov_test_registers.md R57). -/

namespace Sys2Proof.Proofs.InstrEffect

open Sys2Proof Sys2Proof.Machine Sys2Proof.Proofs.Privilege

/-- The checks after the privilege check, and the effect but for the flags and pc (R57 (3) to (6)). -/
def effect (i : Instr) (s : State) : Except Refusal State :=
  match i with
  | .movR32Tr6 k => .ok ((s.writeReg k s.readTr6).useDraws 1)
  | .movR32Tr7 k => .ok ((s.writeReg k s.readTr7).useDraws 2)
  | .movTr6R32 k =>
    if tr6Writable (s.regs.get k) then
      if s.pg then .error .pagingOn else tlbCommand (s.setTr6 (s.regs.get k))
    else .error .reservedBitSet
  | .movTr7R32 k => if tr7Writable (s.regs.get k) then .ok (s.setTr7 (s.regs.get k)) else .error .reservedBitSet
  | .movCr3R32 _ => if s.pg then .error .pagingOn else .ok (s.setTlb s.tlb.clearValid)

/-- With privilege an instruction is its effect and the completion. -/
theorem exec_of_privileged (i : Instr) {s : State} (h : s.mode.privileged = true) :
    exec i s = completeCommand (effect i s) := by
  cases i with
  | movR32Tr6 k => rw [exec_movR32Tr6, execMovR32Tr6, if_pos h]; rfl
  | movR32Tr7 k => rw [exec_movR32Tr7, execMovR32Tr7, if_pos h]; rfl
  | movTr6R32 k => rw [exec_movTr6R32, execMovTr6R32, if_pos h, effect]; split_ifs <;> rfl
  | movTr7R32 k => rw [exec_movTr7R32, execMovTr7R32, if_pos h, effect]; split_ifs <;> rfl
  | movCr3R32 k => rw [exec_movCr3R32, execMovCr3R32, if_pos h, effect]; split_ifs <;> rfl

/-- A refusal of the effect is the instruction's. -/
theorem exec_of_effect_error {i : Instr} {s : State} {r : Refusal} (hpriv : s.mode.privileged = true)
    (h : effect i s = .error r) : exec i s = .refused r := by
  rw [exec_of_privileged i hpriv, h]
  rfl

/-- A lookup does not give free values back. -/
theorem tlbLookup_draws_le (s : State) : s.draws ≤ (tlbLookup s).draws := by
  unfold tlbLookup
  split <;> simp [lookupHit, lookupMiss, lookupAny]

/-- A command does not give free values back. -/
theorem tlbCommand_draws_le {s u : State} (h : tlbCommand s = .ok u) : s.draws ≤ u.draws := by
  obtain ⟨-, hw⟩ | ⟨-, rfl⟩ := tlbCommand_ok h
  · obtain ⟨-, -, rfl⟩ := tlbWrite_ok hw
    exact Nat.le_add_right _ 3
  · exact tlbLookup_draws_le s

/-- The effect leaves pc, the mode, PG and the program bytes, and gives no free value back. -/
theorem effect_frame {i : Instr} {s u : State} (h : effect i s = .ok u) :
    u.pc = s.pc ∧ u.mode = s.mode ∧ u.pg = s.pg ∧ u.prog = s.prog ∧ s.draws ≤ u.draws := by
  cases i with
  | movR32Tr6 k => cases h; exact ⟨rfl, rfl, rfl, rfl, Nat.le_add_right _ 1⟩
  | movR32Tr7 k => cases h; exact ⟨rfl, rfl, rfl, rfl, Nat.le_add_right _ 2⟩
  | movTr6R32 k =>
    rw [effect] at h
    split_ifs at h
    obtain ⟨-, hpc, -, hmode, hpg, hprog⟩ := tlbCommand_frame h
    have hdraws := tlbCommand_draws_le h
    exact ⟨hpc, hmode, hpg, hprog, hdraws⟩
  | movTr7R32 k =>
    rw [effect] at h
    split_ifs at h
    cases h; exact ⟨rfl, rfl, rfl, rfl, Nat.le_refl _⟩
  | movCr3R32 k =>
    rw [effect] at h
    split_ifs at h
    cases h; exact ⟨rfl, rfl, rfl, rfl, Nat.le_refl _⟩

/-- When an instruction answers a next state, it may run there, its effect answered, and only the flags and pc changed
after that. -/
theorem exec_next {i : Instr} {s t : State} (h : exec i s = .next t) :
    CanRun s ∧ ∃ u, effect i s = .ok u ∧ t = u.drawFlags.setPc (s.pc + 3) := by
  by_cases hpriv : s.mode.privileged = true
  · rw [exec_of_privileged i hpriv] at h
    obtain ⟨u, hu, hroom, rfl⟩ := completeCommand_next h
    rw [(effect_frame hu).1] at hroom ⊢
    exact ⟨⟨hpriv, hroom⟩, u, hu, rfl⟩
  · rw [exec_of_not_privileged i hpriv] at h
    cases h

/-- Where an instruction may run and its effect answers, it completes. -/
theorem exec_of_effect {i : Instr} {s u : State} (hrun : CanRun s) (h : effect i s = .ok u) :
    exec i s = .next (u.drawFlags.setPc (s.pc + 3)) := by
  have hpc := (effect_frame h).1
  rw [exec_of_privileged i hrun.1, h, ← hpc]
  exact complete_eq (hpc ▸ hrun.2)

/-! No effect reads pc. -/

theorem tlbLookup_setPc (s : State) (a : Word) : tlbLookup (s.setPc a) = (tlbLookup s).setPc a := by
  rw [tlbLookup, tlbLookup, State.setPc_tlb, State.setPc_tr6]
  cases s.tlb.lookup s.tr6 <;> rfl

theorem tlbWrite_setPc (s : State) (a : Word) : tlbWrite (s.setPc a) = (tlbWrite s).map (·.setPc a) := by
  conv_rhs => rw [tlbWrite, apply_ite (Except.map _), apply_ite (Except.map _)]
  rfl

theorem tlbCommand_setPc (s : State) (a : Word) : tlbCommand (s.setPc a) = (tlbCommand s).map (·.setPc a) := by
  conv_rhs => rw [tlbCommand, apply_ite (Except.map _), ← tlbWrite_setPc]
  rw [tlbCommand, tlbLookup_setPc]
  rfl

theorem effect_setPc (i : Instr) (s : State) (a : Word) : effect i (s.setPc a) = (effect i s).map (·.setPc a) := by
  cases i with
  | movR32Tr6 k => rfl
  | movR32Tr7 k => rfl
  | movTr6R32 k =>
    conv_rhs => rw [effect, apply_ite (Except.map _), apply_ite (Except.map _), ← tlbCommand_setPc]
    rfl
  | movTr7R32 k =>
    conv_rhs => rw [effect, apply_ite (Except.map _)]
    rfl
  | movCr3R32 k =>
    conv_rhs => rw [effect, apply_ite (Except.map _)]
    rfl

/-- Settles O50: what answers at another pc passed every check there, and none of them reads pc; so here only the completion is
left, and it is refused. -/
theorem endingAtTheLimitIsRefused : Obligations.EndingAtTheLimitIsRefused := by
  intro i s t a h hlimit
  obtain ⟨⟨hpriv, -⟩, u, hu, -⟩ := exec_next h
  rw [effect_setPc] at hu
  rw [State.setPc_mode] at hpriv
  rw [exec_of_privileged i hpriv]
  rcases he : effect i s with r | v
  · rw [he] at hu
    cases hu
  · rw [← (effect_frame he).1] at hlimit
    exact complete_pcWrap hlimit

/-! The privilege check. -/

/-- Settles O11: with privilege the outcome is a completion, which never faults, and without it is GP(0). -/
theorem faultsExactlyWhenUnprivileged : Obligations.FaultsExactlyWhenUnprivileged := by
  intro i s f
  by_cases hpriv : s.mode.privileged = true
  · rw [exec_of_privileged i hpriv]
    refine iff_of_false (completeCommand_ne_fault _ f) ?_
    rintro ⟨-, cpl, hmode, hcpl⟩
    exact not_privileged_of_level_ne_zero hmode hcpl hpriv
  · rw [exec_of_not_privileged i hpriv, raiseGp0, Host.Outcome.fault.injEq, eq_comm,
      and_iff_left (Mode.not_privileged hpriv)]

/-! Frames of every instruction. -/

/-- After its effect an instruction changes the mode, PG and the program bytes no more than the effect does. -/
theorem sameFixed_of_effect {i : Instr} {s u : State} (h : effect i s = .ok u) (a : Word) :
    SameFixed s (u.drawFlags.setPc a) := by
  obtain ⟨-, hmode, hpg, hprog, -⟩ := effect_frame h
  exact ⟨hmode, hpg, fun b => by rw [State.setPc_prog, State.drawFlags_prog, hprog]⟩

/-- A step that answers is an instruction that answers. -/
theorem step_next_exec {s t : State} (h : step s = .next t) : ∃ i, exec i s = .next t := by
  obtain ⟨-, i, -, -, -, hi⟩ := step_next h
  exact ⟨i, hi⟩

/-- Settles O13: no effect changes them, and no completion. -/
theorem stepKeepsModePagingAndProgram : Obligations.StepKeepsModePagingAndProgram := by
  intro s t h
  obtain ⟨i, hi⟩ := step_next_exec h
  obtain ⟨-, u, hu, rfl⟩ := exec_next hi
  exact sameFixed_of_effect hu _

/-- Settles O14: a completion asks for room before it moves pc. -/
theorem stepMovesPcByThree : Obligations.StepMovesPcByThree := by
  intro s t h
  obtain ⟨i, hi⟩ := step_next_exec h
  obtain ⟨⟨-, hroom⟩, u, -, rfl⟩ := exec_next hi
  exact pc_add_three hroom

/-- Settles O15: the flags are drawn last, after the free values the effect used. -/
theorem stepMakesFlagsFresh : Obligations.StepMakesFlagsFresh := by
  intro s t h
  obtain ⟨i, hi⟩ := step_next_exec h
  obtain ⟨-, u, hu, rfl⟩ := exec_next hi
  obtain ⟨-, -, -, -, hdraws⟩ := effect_frame hu
  exact ⟨Nat.add_le_add_right hdraws 6, rfl⟩

end Sys2Proof.Proofs.InstrEffect
end

section
/-! TR6 and TR7: where their fields stand, what a move into and out of them does (10_state.md R14 to R17,
40_mov_test_registers.md R50, R51, R55, R56). -/

namespace Sys2Proof.Proofs.TestRegisters

open Sys2Proof Sys2Proof.Machine Sys2Proof.Proofs.InstrEffect

/-! The layouts. -/

/-- A field as a number. -/
theorem field_toNat (v : Word) (lo w : Nat) : (field v lo w).toNat = v.toNat / 2 ^ lo % 2 ^ w := by
  rw [field, BitVec.extractLsb'_toNat, Nat.shiftRight_eq_div_pow]

/-- The 20 high-order bits of a doubleword as a number. -/
theorem field_high_toNat (v : Word) : (field v 12 20).toNat = v.toNat / 4096 := by
  rw [field_toNat]
  have := v.isLt
  omega

/-- The lowest bits of a doubleword as a number. -/
theorem field_zero_toNat (v : Word) (w : Nat) : (field v 0 w).toNat = v.toNat % 2 ^ w := by
  rw [field_toNat, pow_zero, Nat.div_one]

/-- Settles O20: each accessor is a field at the position of the layout. -/
theorem testRegisterLayout : Obligations.TestRegisterLayout := by
  intro x
  exact ⟨⟨field_high_toNat x, field_toNat x 11 1, field_toNat x 10 1, field_toNat x 9 1, field_toNat x 8 1,
      field_toNat x 7 1, field_toNat x 6 1, field_toNat x 5 1, field_toNat x 1 4, field_zero_toNat x 1⟩,
    field_high_toNat x, field_toNat x 5 7, field_toNat x 4 1, field_toNat x 2 2, field_zero_toNat x 2⟩

/-! Reading past the reserved positions. -/

/-- Two values are equal under a mask exactly when their bits outside the masked positions are. -/
theorem mask_eq_iff {m : Word} {reserved : Nat → Prop} [DecidablePred reserved]
    (hm : ∀ (v : Word) b, (v &&& m).getLsbD b = (!decide (reserved b) && v.getLsbD b)) (x y : Word) :
    x &&& m = y &&& m ↔ ∀ b, ¬ reserved b → x.getLsbD b = y.getLsbD b := by
  constructor
  · intro h b hb
    have hbit : (x &&& m).getLsbD b = (y &&& m).getLsbD b := by rw [h]
    simpa [hm, hb] using hbit
  · intro h
    refine BitVec.eq_of_getLsbD_eq fun b _ => ?_
    by_cases hb : reserved b
    · simp [hm, hb]
    · simp [hm, hb, h b hb]

/-- The values agree in every position of TR6 that is not reserved. -/
theorem tr6_mask_eq_iff (x y : Word) : x &&& 0xFFFFFFE1#32 = y &&& 0xFFFFFFE1#32 ↔
    ∀ b, ¬ (1 ≤ b ∧ b ≤ 4) → x.getLsbD b = y.getLsbD b :=
  mask_eq_iff tr6_mask_getLsbD x y

/-- The values agree in every position of TR7 that is not reserved. -/
theorem tr7_mask_eq_iff (x y : Word) : x &&& 0xFFFFF01C#32 = y &&& 0xFFFFF01C#32 ↔
    ∀ b, ¬ (b ≤ 1 ∨ (5 ≤ b ∧ b ≤ 11)) → x.getLsbD b = y.getLsbD b :=
  mask_eq_iff tr7_mask_getLsbD x y

/-- A value that may be moved into TR6 has nothing to mask. -/
theorem mask_of_tr6Writable {v : Word} (h : tr6Writable v = true) : v &&& 0xFFFFFFE1#32 = v := by
  refine BitVec.eq_of_getLsbD_eq fun b _ => ?_
  rw [tr6_mask_getLsbD]
  by_cases hb : 1 ≤ b ∧ b ≤ 4
  · simp [hb, (tr6Writable_iff v).1 h b hb]
  · simp [hb]

/-- A value that may be moved into TR7 has nothing to mask. -/
theorem mask_of_tr7Writable {v : Word} (h : tr7Writable v = true) : v &&& 0xFFFFF01C#32 = v := by
  refine BitVec.eq_of_getLsbD_eq fun b _ => ?_
  rw [tr7_mask_getLsbD]
  by_cases hb : b ≤ 1 ∨ (5 ≤ b ∧ b ≤ 11)
  · simp [hb, (tr7Writable_iff v).1 h b hb]
  · simp [hb]

/-- A read of TR6, bit by bit. -/
theorem readTr6_getLsbD (s : State) (b : Nat) : s.readTr6.getLsbD b =
    if 1 ≤ b ∧ b ≤ 4 then (Config.draw 4 s.draws).getLsbD (b - 1) else s.tr6.getLsbD b := by
  rw [State.readTr6, setField_getLsbD _ _ _ (by omega)]
  by_cases hb : 1 ≤ b ∧ b ≤ 4
  · rw [if_pos (by omega), if_pos hb]
    rfl
  · rw [if_neg (by omega), if_neg hb]

/-- A read of TR7, bit by bit. -/
theorem readTr7_getLsbD (s : State) (b : Nat) : s.readTr7.getLsbD b =
    if 5 ≤ b ∧ b ≤ 11 then (Config.draw 7 s.draws).getLsbD (b - 5)
    else if b ≤ 1 then (Config.draw 2 (s.draws + 1)).getLsbD b else s.tr7.getLsbD b := by
  rw [State.readTr7, setField_getLsbD _ _ _ (by omega), setField_getLsbD _ _ _ (by omega)]
  by_cases hhigh : 5 ≤ b ∧ b ≤ 11
  · rw [if_neg (by omega), if_pos (by omega), if_pos hhigh]
    rfl
  · by_cases hlow : b ≤ 1
    · rw [if_pos (by omega), if_neg hhigh, if_pos hlow]
      rfl
    · rw [if_neg (by omega), if_neg (by omega), if_neg hhigh, if_neg hlow]

/-- A read of TR6 gives the register where it is not reserved. -/
theorem readTr6_mask (s : State) : s.readTr6 &&& 0xFFFFFFE1#32 = s.tr6 &&& 0xFFFFFFE1#32 := by
  rw [tr6_mask_eq_iff]
  intro b hb
  rw [readTr6_getLsbD, if_neg hb]

/-- A read of TR7 gives the register where it is not reserved. -/
theorem readTr7_mask (s : State) : s.readTr7 &&& 0xFFFFF01C#32 = s.tr7 &&& 0xFFFFF01C#32 := by
  rw [tr7_mask_eq_iff]
  intro b hb
  rw [readTr7_getLsbD, if_neg (by omega), if_neg (by omega)]

/-! The moves out of TR6 and TR7. -/

/-- Settles O17: the register gets what a read of TR6 gives. -/
theorem movR32Tr6StoresTr6 : Obligations.MovR32Tr6StoresTr6 := by
  intro k s hrun
  refine ⟨_, exec_of_effect hrun rfl, fun b => ?stored, fun j hj => Regs.get_set_ne _ _ hj, rfl, rfl, fun _ => rfl,
    sameFixed_of_effect (i := .movR32Tr6 k) rfl _, rfl, rfl, rfl⟩
  rw [← readTr6_getLsbD]
  exact congrArg (BitVec.getLsbD · b) (Regs.get_set_self s.regs k s.readTr6)

/-- Settles O18: the register gets what a read of TR7 gives. -/
theorem movR32Tr7StoresTr7 : Obligations.MovR32Tr7StoresTr7 := by
  intro k s hrun
  refine ⟨_, exec_of_effect hrun rfl, fun b => ?stored, fun j hj => Regs.get_set_ne _ _ hj, rfl, rfl, fun _ => rfl,
    sameFixed_of_effect (i := .movR32Tr7 k) rfl _, rfl, rfl, rfl⟩
  rw [← readTr7_getLsbD]
  exact congrArg (BitVec.getLsbD · b) (Regs.get_set_self s.regs k s.readTr7)

/-- After `MOV r32,TR6` the register holds TR6 where it is not reserved. -/
theorem movR32Tr6_stored_mask {k : Reg32} {s t : State} (h : exec (.movR32Tr6 k) s = .next t) :
    t.regs.get k &&& 0xFFFFFFE1#32 = s.tr6 &&& 0xFFFFFFE1#32 := by
  obtain ⟨-, -, rfl⟩ := execMovR32Tr6_next h
  rw [← readTr6_mask]
  exact congrArg (· &&& 0xFFFFFFE1#32) (Regs.get_set_self s.regs k s.readTr6)

/-- After `MOV r32,TR7` the register holds TR7 where it is not reserved. -/
theorem movR32Tr7_stored_mask {k : Reg32} {s t : State} (h : exec (.movR32Tr7 k) s = .next t) :
    t.regs.get k &&& 0xFFFFF01C#32 = s.tr7 &&& 0xFFFFF01C#32 := by
  obtain ⟨-, -, rfl⟩ := execMovR32Tr7_next h
  rw [← readTr7_mask]
  exact congrArg (· &&& 0xFFFFF01C#32) (Regs.get_set_self s.regs k s.readTr7)

/-! The moves into TR6 and TR7. -/

/-- A TLB write keeps the value moved into TR6 (41_tlb_test_operations.md R65). -/
theorem movTr6R32_write_tr6 {k : Reg32} {s t : State} (h : exec (.movTr6R32 k) s = .next t)
    (hc : tr6C (s.regs.get k) = 0) : t.tr6 = s.regs.get k := by
  obtain ⟨-, -, -, -, u, hu, rfl⟩ := execMovTr6R32_next h
  rw [tlbCommand_write hc] at hu
  obtain ⟨-, -, rfl⟩ := tlbWrite_ok hu
  rfl

/-- Settles O19: what was moved in has no reserved bit, and reading gives the register where it is not reserved. -/
theorem testRegistersReadBack : Obligations.TestRegistersReadBack := by
  intro j k s t u
  constructor
  · intro hmove hread
    obtain ⟨-, hw, -, rfl⟩ := execMovTr7R32_next hmove
    rw [movR32Tr7_stored_mask hread]
    exact mask_of_tr7Writable hw
  · intro hmove hc hread
    obtain ⟨-, hw, -⟩ := execMovTr6R32_next hmove
    rw [movR32Tr6_stored_mask hread, movTr6R32_write_tr6 hmove hc]
    exact mask_of_tr6Writable hw

/-- Settles O21: the only check after the privilege check is that of the reserved positions. -/
theorem movTr7R32SetsTr7 : Obligations.MovTr7R32SetsTr7 := by
  intro k s hrun hclear
  have he : effect (.movTr7R32 k) s = .ok (s.setTr7 (s.regs.get k)) := if_pos ((tr7Writable_iff _).2 hclear)
  exact ⟨_, exec_of_effect hrun he, rfl, fun _ => rfl, rfl, fun _ => rfl, sameFixed_of_effect he _, rfl, rfl, rfl⟩

/-- Settles O22: the check of the reserved positions comes before that of PG. -/
theorem reservedBitIsRefused : Obligations.ReservedBitIsRefused := by
  intro k s b hpriv hbit
  refine ⟨fun hb => exec_of_effect_error hpriv (if_neg fun hw => ?_), fun hb =>
    exec_of_effect_error hpriv (if_neg fun hw => ?_)⟩
  · exact absurd (((tr6Writable_iff _).1 hw b hb).symm.trans hbit) (by decide)
  · exact absurd (((tr7Writable_iff _).1 hw b hb).symm.trans hbit) (by decide)

end Sys2Proof.Proofs.TestRegisters
end

section
/-! Two runs of one program: which differences between two states no step sees. -/

namespace Sys2Proof.Proofs.Noninterference

open Sys2Proof Sys2Proof.Machine Sys2Proof.Proofs.Privilege Sys2Proof.Proofs.InstrEffect
  Sys2Proof.Proofs.TestRegisters

/-! From effects to instructions and steps, for any relation that completion keeps. -/

/-- Two effects that both answer related states or are refused for equal reasons. -/
def EffectsRelated (r : State → State → Prop) : Except Refusal State → Except Refusal State → Prop
  | .ok u, .ok v => r u v
  | .error p, .error q => p = q
  | _, _ => False

/-- Related states have the same pc, and the completion of an instruction keeps them related. -/
structure CompletionKeeps (r : State → State → Prop) : Prop where
  pc_eq : ∀ {u v}, r u v → v.pc = u.pc
  complete : ∀ {u v}, r u v → ∀ a, r (u.drawFlags.setPc a) (v.drawFlags.setPc a)

section AnyRelation

variable {r : State → State → Prop}

/-- Related effects complete to related outcomes. -/
theorem completeCommand_related (hr : CompletionKeeps r) {x y : Except Refusal State} (h : EffectsRelated r x y) :
    OutcomesRelated r (completeCommand x) (completeCommand y) := by
  match x, y, h with
  | .error p, .error q, h => exact h
  | .ok u, .ok v, h =>
    have hpc := hr.pc_eq h
    by_cases hroom : u.pc.toNat + 3 < addressLimit
    · rw [completeCommand, completeCommand, complete_eq hroom, complete_eq (hpc ▸ hroom), hpc]
      exact hr.complete h _
    · have hlimit := Nat.le_of_not_lt hroom
      rw [completeCommand, completeCommand, complete_pcWrap hlimit, complete_pcWrap (hpc ▸ hlimit)]
      rfl

/-- In states of the same privilege, related effects make related instructions. -/
theorem exec_related (hr : CompletionKeeps r) {i : Instr} {s t : State} (hmode : t.mode.privileged = s.mode.privileged)
    (h : EffectsRelated r (effect i s) (effect i t)) : OutcomesRelated r (exec i s) (exec i t) := by
  by_cases hpriv : s.mode.privileged = true
  · rw [exec_of_privileged i hpriv, exec_of_privileged i (hmode.trans hpriv)]
    exact completeCommand_related hr h
  · rw [exec_of_not_privileged i hpriv, exec_of_not_privileged i (hmode ▸ hpriv)]
    rfl

/-- States that fetch the same bytes take related steps when every instruction does. -/
theorem step_related {s t : State} (hfetch : fetch t = fetch s)
    (h : ∀ i, OutcomesRelated r (exec i s) (exec i t)) : OutcomesRelated r (step s) (step t) := by
  rw [step, step, hfetch]
  rcases fetch s with p | bytes
  · rfl
  · rcases hd : decode bytes with ⟨⟩ | ⟨i, rest⟩
    · simp only [hd]; rfl
    · simp only [hd]; exact h i

theorem EffectsRelated.ite {c : Prop} [Decidable c] {x y x' y' : Except Refusal State} (hx : EffectsRelated r x x')
    (hy : EffectsRelated r y y') : EffectsRelated r (if c then x else y) (if c then x' else y') := by
  split_ifs
  · exact hx
  · exact hy

/-- The command bit is read from TR6, which is the value just moved in on both sides. -/
theorem tlbCommand_related {s t : State} (htr6 : t.tr6 = s.tr6) (hwrite : EffectsRelated r (tlbWrite s) (tlbWrite t))
    (hlookup : r (tlbLookup s) (tlbLookup t)) : EffectsRelated r (tlbCommand s) (tlbCommand t) := by
  rw [tlbCommand, tlbCommand, htr6]
  exact EffectsRelated.ite hwrite hlookup

/-- The checks of every instruction read only the registers and PG, so states that agree there have related effects when each
kind of effect keeps them related. -/
theorem effect_related {i : Instr} {s t : State} (hregs : t.regs = s.regs) (hpg : t.pg = s.pg)
    (hread6 : ∀ k, r ((s.writeReg k s.readTr6).useDraws 1) ((t.writeReg k t.readTr6).useDraws 1))
    (hread7 : ∀ k, r ((s.writeReg k s.readTr7).useDraws 2) ((t.writeReg k t.readTr7).useDraws 2))
    (hcommand : ∀ v, EffectsRelated r (tlbCommand (s.setTr6 v)) (tlbCommand (t.setTr6 v)))
    (hset7 : ∀ v, r (s.setTr7 v) (t.setTr7 v))
    (hclear : r (s.setTlb s.tlb.clearValid) (t.setTlb t.tlb.clearValid)) :
    EffectsRelated r (effect i s) (effect i t) := by
  cases i with
  | movR32Tr6 k => exact hread6 k
  | movR32Tr7 k => exact hread7 k
  | movTr6R32 k =>
    rw [effect, effect, hregs, hpg]
    exact .ite (.ite rfl (hcommand _)) rfl
  | movTr7R32 k =>
    rw [effect, effect, hregs]
    exact .ite (hset7 _) rfl
  | movCr3R32 k =>
    rw [effect, effect, hpg]
    exact .ite rfl hclear

end AnyRelation

/-! Real-address mode and privilege level 0 (40_mov_test_registers.md R53). -/

theorem completionKeeps_realAndLevel0 : CompletionKeeps RealAndLevel0 where
  pc_eq h := by rw [h.2]
  complete h a := by
    obtain ⟨hmode, rfl⟩ := h
    exact ⟨hmode, rfl⟩

theorem tlbLookup_realAndLevel0 {s t : State} (h : RealAndLevel0 s t) : RealAndLevel0 (tlbLookup s) (tlbLookup t) := by
  obtain ⟨hmode, rfl⟩ := h
  rw [tlbLookup, tlbLookup]
  rcases s.tlb.lookup s.tr6 with l | _ | _ <;> exact ⟨hmode, rfl⟩

theorem tlbWrite_realAndLevel0 {s t : State} (h : RealAndLevel0 s t) :
    EffectsRelated RealAndLevel0 (tlbWrite s) (tlbWrite t) := by
  obtain ⟨hmode, rfl⟩ := h
  exact .ite (.ite rfl ⟨hmode, rfl⟩) rfl

/-- Settles O12: both modes pass the privilege check, and no effect reads the mode. -/
theorem realModeRunsAsLevelZero : Obligations.RealModeRunsAsLevelZero := by
  rintro i s t ⟨hmode, rfl⟩
  refine exec_related completionKeeps_realAndLevel0 (by rw [hmode]; rfl) ?_
  exact effect_related rfl rfl (fun _ => ⟨hmode, rfl⟩)
    (fun _ => ⟨hmode, rfl⟩)
    (fun _ => tlbCommand_related rfl (tlbWrite_realAndLevel0 ⟨hmode, rfl⟩) (tlbLookup_realAndLevel0 ⟨hmode, rfl⟩))
    (fun _ => ⟨hmode, rfl⟩) ⟨hmode, rfl⟩

/-! The fields of unassigned entries (10_state.md R12). -/

/-- The arrays are equal but for what the fields of unassigned entries hold. -/
def TlbsAgree (a b : Tlb) : Prop :=
  ∀ l, (b.get l).init = (a.get l).init ∧ (b.get l).v = (a.get l).v ∧ ((a.get l).init = true → b.get l = a.get l)

theorem SameButUnassigned.exists_setTlb {s t : State} (h : SameButUnassigned s t) :
    ∃ b, t = s.setTlb b ∧ TlbsAgree s.tlb b := ⟨t.tlb, h⟩

theorem completionKeeps_sameButUnassigned : CompletionKeeps SameButUnassigned where
  pc_eq h := by obtain ⟨b, rfl, -⟩ := SameButUnassigned.exists_setTlb h; rfl
  complete h a := by
    obtain ⟨b, rfl, hb⟩ := SameButUnassigned.exists_setTlb h
    exact ⟨rfl, hb⟩

/-- A condition that asks for an assigned entry does not see the difference. -/
theorem TlbsAgree.init_and_iff {a b : Tlb} (h : TlbsAgree a b) (l : Loc) (P : TlbEntry → Prop) :
    (b.get l).init = true ∧ P (b.get l) ↔ (a.get l).init = true ∧ P (a.get l) := by
  obtain ⟨hinit, -, heq⟩ := h l
  rw [hinit]
  exact and_congr_right fun ha => by rw [heq ha]

theorem TlbsAgree.hasDuplicate_eq {a b : Tlb} (h : TlbsAgree a b) (l : Loc) (e : TlbEntry) :
    b.hasDuplicate l e = a.hasDuplicate l e := by
  rw [Bool.eq_iff_iff, Tlb.hasDuplicate_iff, Tlb.hasDuplicate_iff]
  exact exists_congr fun l' => and_congr_right fun _ => h.init_and_iff l' fun f => f.sameTag e = true

theorem TlbsAgree.matchesTag_eq {a b : Tlb} (h : TlbsAgree a b) (l : Loc) (v : Word) :
    (b.get l).matchesTag v = (a.get l).matchesTag v := by
  rw [Bool.eq_iff_iff, TlbEntry.matchesTag_iff, TlbEntry.matchesTag_iff]
  exact h.init_and_iff l fun e => e.la = tr6La v ∧ e.v = tr6V v ∧ e.d = tr6D v ∧ e.u = tr6U v ∧ e.w = tr6W v

theorem TlbsAgree.lookup_eq {a b : Tlb} (h : TlbsAgree a b) (v : Word) : b.lookup v = a.lookup v := by
  have huninit : b.hasUninit = a.hasUninit := by
    rw [Bool.eq_iff_iff, Tlb.hasUninit_iff, Tlb.hasUninit_iff]
    exact exists_congr fun l => by rw [(h l).1]
  have hmatching : b.matching v = a.matching v := by simp only [Tlb.matching, h.matchesTag_eq]
  rw [Tlb.lookup, Tlb.lookup, huninit, hmatching]

theorem TlbsAgree.set {a b : Tlb} (h : TlbsAgree a b) (l : Loc) (e : TlbEntry) : TlbsAgree (a.set l e) (b.set l e) := by
  intro l'
  rw [Tlb.get_set, Tlb.get_set]
  split
  · exact ⟨rfl, rfl, fun _ => rfl⟩
  · exact h l'

theorem TlbsAgree.clearValid {a b : Tlb} (h : TlbsAgree a b) : TlbsAgree a.clearValid b.clearValid := by
  intro l
  rw [Tlb.get_clearValid, Tlb.get_clearValid]
  obtain ⟨hinit, -, heq⟩ := h l
  exact ⟨hinit, rfl, fun ha => by rw [heq ha]⟩

/-- A TLB write compares and stores the same on both arrays. -/
theorem tlbWrite_setTlb_related {s : State} {b : Tlb} (h : TlbsAgree s.tlb b) :
    EffectsRelated SameButUnassigned (tlbWrite s) (tlbWrite (s.setTlb b)) := by
  have hdup : (s.setTlb b).tlb.hasDuplicate (writeLoc (s.setTlb b).tr6 (s.setTlb b).tr7) (s.setTlb b).newEntry =
      s.tlb.hasDuplicate (writeLoc s.tr6 s.tr7) s.newEntry := h.hasDuplicate_eq _ _
  rw [tlbWrite, tlbWrite, hdup, State.setTlb_tr7]
  split_ifs
  · rfl
  · exact ⟨rfl, h.set _ _⟩
  · rfl

/-- A lookup finds the same on both arrays, and the entry it hits is assigned, so it is the same entry. -/
theorem tlbLookup_setTlb_related {s : State} {b : Tlb} (h : TlbsAgree s.tlb b) :
    SameButUnassigned (tlbLookup s) (tlbLookup (s.setTlb b)) := by
  rw [tlbLookup, tlbLookup, State.setTlb_tlb, State.setTlb_tr6, h.lookup_eq]
  rcases hr : s.tlb.lookup s.tr6 with l | _ | _
  case hit =>
    obtain ⟨-, hmatch, -⟩ := (s.tlb.lookup_hit_iff s.tr6 l).1 hr
    obtain ⟨hinit, -⟩ := (TlbEntry.matchesTag_iff _ _).1 hmatch
    obtain ⟨-, -, heq⟩ := h l
    simp only [lookupHit, State.setTlb_tlb, heq hinit]
    exact ⟨rfl, h⟩
  case miss => exact ⟨rfl, h⟩
  case any => exact ⟨rfl, h⟩

/-- Settles O47: the two arrays agree on every assigned entry, and no effect reads another. -/
theorem unassignedFieldsAreNotRead : Obligations.UnassignedFieldsAreNotRead := by
  intro s t hst
  obtain ⟨b, rfl, h⟩ := SameButUnassigned.exists_setTlb hst
  refine step_related rfl fun i => exec_related completionKeeps_sameButUnassigned rfl ?_
  exact effect_related rfl rfl (fun _ => ⟨rfl, h⟩) (fun _ => ⟨rfl, h⟩)
    (fun v => tlbCommand_related rfl (tlbWrite_setTlb_related (s := s.setTr6 v) h)
      (tlbLookup_setTlb_related (s := s.setTr6 v) h))
    (fun _ => ⟨rfl, h⟩) ⟨rfl, h.clearValid⟩

/-! The reserved positions of TR6 and TR7 (10_state.md R17). -/

theorem SameButReserved.exists_setTr {s t : State} (h : SameButReserved s t) : ∃ a b, t = (s.setTr6 a).setTr7 b ∧
    a &&& 0xFFFFFFE1#32 = s.tr6 &&& 0xFFFFFFE1#32 ∧ b &&& 0xFFFFF01C#32 = s.tr7 &&& 0xFFFFF01C#32 :=
  ⟨t.tr6, t.tr7, h⟩

theorem completionKeeps_sameButReserved : CompletionKeeps SameButReserved where
  pc_eq h := by obtain ⟨a, b, rfl, -⟩ := SameButReserved.exists_setTr h; rfl
  complete h _ := by
    obtain ⟨a, b, rfl, ha, hb⟩ := SameButReserved.exists_setTr h
    exact ⟨rfl, ha, hb⟩

/-- A read of TR6 fills the reserved positions. -/
theorem readTr6_eq_of_mask_eq {s : State} {a : Word} (h : a &&& 0xFFFFFFE1#32 = s.tr6 &&& 0xFFFFFFE1#32) (b : Word) :
    ((s.setTr6 a).setTr7 b).readTr6 = s.readTr6 := by
  refine BitVec.eq_of_getLsbD_eq fun i _ => ?_
  rw [readTr6_getLsbD, readTr6_getLsbD]
  by_cases hi : 1 ≤ i ∧ i ≤ 4
  · rw [if_pos hi, if_pos hi]
    rfl
  · rw [if_neg hi, if_neg hi]
    exact (tr6_mask_eq_iff _ _).1 h i hi

/-- A read of TR7 fills the reserved positions. -/
theorem readTr7_eq_of_mask_eq {s : State} {b : Word} (h : b &&& 0xFFFFF01C#32 = s.tr7 &&& 0xFFFFF01C#32) (a : Word) :
    ((s.setTr6 a).setTr7 b).readTr7 = s.readTr7 := by
  refine BitVec.eq_of_getLsbD_eq fun i _ => ?_
  rw [readTr7_getLsbD, readTr7_getLsbD]
  by_cases hi : i ≤ 1 ∨ (5 ≤ i ∧ i ≤ 11)
  · split_ifs
    · rfl
    · rfl
    · omega
  · rw [if_neg (by omega), if_neg (by omega), if_neg (by omega), if_neg (by omega)]
    exact (tr7_mask_eq_iff _ _).1 h i hi

/-- A field of TR7 that is not reserved is read the same. -/
theorem field_eq_of_tr7_mask_eq {x y : Word} (h : x &&& 0xFFFFF01C#32 = y &&& 0xFFFFF01C#32) {lo w : Nat}
    (hfree : ∀ b, lo ≤ b ∧ b < lo + w → ¬ (b ≤ 1 ∨ (5 ≤ b ∧ b ≤ 11))) : field x lo w = field y lo w := by
  refine BitVec.eq_of_getLsbD_eq fun i hi => ?_
  rw [field_getLsbD, field_getLsbD, (tr7_mask_eq_iff _ _).1 h (lo + i) (hfree _ (by omega))]

/-- A TLB write reads no reserved position of TR7. -/
theorem tlbWrite_setTr7_related {s : State} {b : Word} (h : b &&& 0xFFFFF01C#32 = s.tr7 &&& 0xFFFFF01C#32) :
    EffectsRelated SameButReserved (tlbWrite s) (tlbWrite (s.setTr7 b)) := by
  have hht : tr7Ht b = tr7Ht s.tr7 := field_eq_of_tr7_mask_eq h (by omega)
  have hrep : tr7Rep b = tr7Rep s.tr7 := field_eq_of_tr7_mask_eq h (by omega)
  have hpa : tr7Pa b = tr7Pa s.tr7 := field_eq_of_tr7_mask_eq h (by omega)
  have hloc : writeLoc (s.setTr7 b).tr6 (s.setTr7 b).tr7 = writeLoc s.tr6 s.tr7 := by
    rw [State.setTr7_tr7, State.setTr7_tr6, writeLoc, hrep]
    rfl
  have hnew : (s.setTr7 b).newEntry = s.newEntry := by
    rw [State.newEntry, State.setTr7_tr7, hpa]
    rfl
  rw [tlbWrite, tlbWrite, hloc, hnew, State.setTr7_tr7, State.setTr7_tlb, hht]
  exact .ite (.ite rfl ⟨rfl, rfl, h⟩) rfl

/-- A lookup sets every position of TR7 that is not reserved, so it leaves nothing of what TR7 held there
(41_tlb_test_operations.md R67). -/
theorem tr7WithResult_mask_eq (x y : Word) (pa : Page) (ht : Bit) (rep : BitVec 2) :
    tr7WithResult x pa ht rep &&& 0xFFFFF01C#32 = tr7WithResult y pa ht rep &&& 0xFFFFF01C#32 := by
  rw [tr7_mask_eq_iff]
  intro b hb
  rw [tr7WithResult_getLsbD, tr7WithResult_getLsbD]
  split_ifs
  · rfl
  · rfl
  · rfl
  · rw [BitVec.getLsbD_of_ge x b (by omega), BitVec.getLsbD_of_ge y b (by omega)]

/-- A lookup reads nothing of TR7. -/
theorem tlbLookup_setTr7_related (s : State) (b : Word) : SameButReserved (tlbLookup s) (tlbLookup (s.setTr7 b)) := by
  rw [tlbLookup, tlbLookup, State.setTr7_tlb, State.setTr7_tr6]
  rcases s.tlb.lookup s.tr6 with l | _ | _
  case hit => exact ⟨rfl, rfl, tr7WithResult_mask_eq _ _ _ _ _⟩
  case miss => exact ⟨rfl, rfl, tr7WithResult_mask_eq _ _ _ _ _⟩
  case any => exact ⟨rfl, rfl, tr7WithResult_mask_eq _ _ _ _ _⟩

/-- Settles O48: reads of the test registers fill the reserved positions, a move into TR6 replaces them, and the commands read
none of TR7. -/
theorem reservedPositionsAreNotRead : Obligations.ReservedPositionsAreNotRead := by
  intro s t hst
  obtain ⟨a, b, rfl, ha, hb⟩ := SameButReserved.exists_setTr hst
  refine step_related rfl fun i => exec_related completionKeeps_sameButReserved rfl ?_
  refine effect_related rfl rfl (fun k => ?read6) (fun k => ?read7) (fun v => ?command) (fun _ => ⟨rfl, ha, rfl⟩)
    ⟨rfl, ha, hb⟩
  case read6 =>
    rw [readTr6_eq_of_mask_eq ha]
    exact ⟨rfl, ha, hb⟩
  case read7 =>
    rw [readTr7_eq_of_mask_eq hb]
    exact ⟨rfl, ha, hb⟩
  case command =>
    exact tlbCommand_related rfl (tlbWrite_setTr7_related (s := s.setTr6 v) hb)
      (tlbLookup_setTr7_related (s.setTr6 v) b)

/-- Settles O36: with C = 1 only the lookup runs, and it reads nothing of TR7. -/
theorem lookupDoesNotReadTr7 : Obligations.LookupDoesNotReadTr7 := by
  intro k s x hc
  refine exec_related completionKeeps_sameButReserved rfl (.ite (.ite rfl ?_) rfl)
  have hlookup := tlbLookup_setTr7_related (s.setTr6 (s.regs.get k)) x
  have hcommand : EffectsRelated SameButReserved (.ok (tlbLookup (s.setTr6 (s.regs.get k))))
    (.ok (tlbLookup ((s.setTr6 (s.regs.get k)).setTr7 x))) := hlookup
  rw [← tlbCommand_lookup hc, ← tlbCommand_lookup hc] at hcommand
  exact hcommand

end Sys2Proof.Proofs.Noninterference
end

section
/-! The fetch, the loader and the step around an instruction (30_encoding.md R45, R46, 10_state.md R21). -/

namespace Sys2Proof.Proofs.Fetch

open Sys2Proof Sys2Proof.Machine Sys2Proof.Proofs.Decoder

/-! When the fetch is refused. -/

theorem fetch_pcWrap {s : State} (h : addressLimit < s.pc.toNat + 3) : fetch s = .error .pcWrap :=
  if_neg (Nat.not_le.2 h)

/-- One missing byte of the three is enough. -/
theorem fetch_noProgramByte {s : State} (hpc : s.pc.toNat + 3 ≤ addressLimit) {j : Nat} (hj : j < 3)
    (hnone : Memory.read s.prog (s.pc.toNat + j) = none) : fetch s = .error .noProgramByte := by
  cases hf : fetch s with
  | ok bytes =>
    obtain ⟨-, b0, b1, b2, -, h0, h1, h2⟩ := fetch_ok hf
    interval_cases j
    · exact absurd (h0.symm.trans hnone) nofun
    · exact absurd (h1.symm.trans hnone) nofun
    · exact absurd (h2.symm.trans hnone) nofun
  | error r =>
    rw [fetch, if_pos hpc] at hf
    split at hf
    · cases hf
    · exact hf.symm

/-! The step, by what the fetch and the decoder answer. -/

theorem step_of_fetch_error {s : State} {r : Refusal} (h : fetch s = .error r) : step s = .refused r := by
  rw [step, h]

theorem step_of_decode {s : State} {bytes rest : List Byte} {i : Instr} (hf : fetch s = .ok bytes)
    (hd : decode bytes = .ok (i, rest)) : step s = exec i s := by
  simp only [step, hf, hd]

theorem step_of_decode_error {s : State} {bytes : List Byte} (hf : fetch s = .ok bytes)
    (hd : decode bytes = .error .notInScope) : step s = .refused .notInScope := by
  simp only [step, hf, hd]

/-- Settles O6: the bytes are what the fetch answers. -/
theorem stepRunsTheDecodedInstr : Obligations.StepRunsTheDecodedInstr := by
  intro s b0 b1 b2 i hpc h0 h1 h2 hd
  exact step_of_decode (fetch_eq hpc h0 h1 h2) hd

/-- Settles O7: bytes in no row of the table do not decode. -/
theorem stepRefusesBytesOutsideTheTable : Obligations.StepRefusesBytesOutsideTheTable := by
  intro s b0 b1 b2 hpc h0 h1 h2 hrows
  refine step_of_decode_error (fetch_eq hpc h0 h1 h2) ((decode_eq_error_iff_no_row b0 b1 b2 []).2 ?_)
  rw [forall_rowMatch_iff]
  simpa using hrows

/-- Settles O8: the fetch is refused, and the step for its reason. -/
theorem stepRefusesWithoutThreeBytes : Obligations.StepRefusesWithoutThreeBytes := by
  intro s
  exact ⟨fun h => step_of_fetch_error (fetch_pcWrap h),
    fun hpc ⟨_, hj, hnone⟩ => step_of_fetch_error (fetch_noProgramByte hpc hj hnone)⟩

/-! The loader. -/

/-- Bytes placed from an address on leave every byte outside their range. -/
theorem read_writeBytes_outside (m : Memory) (a b : Nat) (xs : List Byte) (h : b < a ∨ a + xs.length ≤ b) :
    Memory.read (Memory.writeBytes m a xs) b = Memory.read m b := by
  induction xs generalizing m a with
  | nil => rfl
  | cons x xs ih =>
    rw [List.length_cons] at h
    rw [Memory.writeBytes, ih _ _ (by omega), Memory.read_write, if_neg (by omega)]

/-- Bytes placed from an address on are read back in order. -/
theorem read_writeBytes_inside (m : Memory) (a j : Nat) (xs : List Byte) (h : j < xs.length) :
    Memory.read (Memory.writeBytes m a xs) (a + j) = some xs[j] := by
  induction xs generalizing m a j with
  | nil => exact absurd h (Nat.not_lt_zero j)
  | cons x xs ih =>
    rw [Memory.writeBytes]
    cases j with
    | zero => rw [read_writeBytes_outside _ _ _ _ (by omega), Memory.read_write, if_pos (Nat.add_zero a)]; rfl
    | succ j =>
      have hj : j < xs.length := Nat.lt_of_succ_lt_succ h
      rw [show a + (j + 1) = a + 1 + j by omega, ih _ _ _ hj]
      rfl

theorem withFetchWord_of_room {s : State} (h : s.pc.toNat + 3 ≤ addressLimit) (nbits w : Nat) :
    s.withFetchWord nbits w = { s with prog := Memory.writeBytes s.prog s.pc.toNat (tableBytes nbits w) } :=
  if_pos h

/-- Settles O9: the three bytes placed are read back, and no others are touched. -/
theorem loadedWordIsFetched : Obligations.LoadedWordIsFetched := by
  intro s nbits w hpc
  rw [withFetchWord_of_room hpc]
  have hlen : (tableBytes nbits w).length = 3 := rfl
  have hread := fun j hj => read_writeBytes_inside s.prog s.pc.toNat j (tableBytes nbits w) hj
  exact ⟨fetch_eq hpc (hread 0 (by omega)) (hread 1 (by omega)) (hread 2 (by omega)),
    fun a ha => read_writeBytes_outside _ _ _ _ ha, rfl⟩

end Sys2Proof.Proofs.Fetch
end

section
/-! The invariant of the machine: it holds after reset, and every step keeps it (10_state.md R12, R17,
41_tlb_test_operations.md R66, R77). -/

namespace Sys2Proof.Proofs.Invariant

open Sys2Proof Sys2Proof.Machine Sys2Proof.Proofs.InstrEffect Sys2Proof.Proofs.TestRegisters

/-! The machine after reset. -/

/-- Settles O43: every entry of the reset TLB is the unassigned one. -/
theorem resetLeavesEveryEntryInvalid : Obligations.ResetLeavesEveryEntryInvalid := by
  intro l
  rw [State.reset_tlb_get]
  exact ⟨rfl, rfl⟩

/-- Settles O44: the values of reset are masked by the positions that hold state. -/
theorem resetLeavesTestRegistersFree : Obligations.ResetLeavesTestRegistersFree :=
  ⟨tr6_mask_getLsbD Config.resetTr6, tr7_mask_getLsbD Config.resetTr7⟩

/-! The three clauses about the TLB. -/

/-- The clauses of the invariant that speak of the TLB. -/
structure WellKept (t : Tlb) : Prop where
  unassignedInvalid : t.UnassignedInvalid
  placed : t.Placed
  validTagsDiffer : t.ValidTagsDiffer

theorem wellKept_of_inv {s : State} (h : s.Inv) : WellKept s.tlb :=
  ⟨h.unassignedInvalid, h.placed, h.validTagsDiffer⟩

/-- An array without an assigned or valid entry is well kept. -/
theorem wellKept_reset : WellKept State.reset.tlb where
  unassignedInvalid l _ := (resetLeavesEveryEntryInvalid l).2
  placed l h := by
    rw [(resetLeavesEveryEntryInvalid l).1] at h
    cases h
  validTagsDiffer l _ _ h := by
    rw [(resetLeavesEveryEntryInvalid l).1] at h
    cases h

/-- Having the same tag does not depend on the order. -/
theorem sameTag_comm (e f : TlbEntry) : e.sameTag f = f.sameTag e := by
  rw [Bool.eq_iff_iff, TlbEntry.sameTag_iff, TlbEntry.sameTag_iff]
  constructor <;>
    rintro ⟨h1, h2, h3, h4, h5⟩ <;>
    exact ⟨h1.symm, h2.symm, h3.symm, h4.symm, h5.symm⟩

/-- No duplicate means that every assigned entry elsewhere has another tag. -/
theorem sameTag_eq_false_of_no_duplicate {t : Tlb} {l : Loc} {e : TlbEntry} (h : t.hasDuplicate l e = false) {l' : Loc}
    (hne : l' ≠ l) (hinit : (t.get l').init = true) : (t.get l').sameTag e = false := by
  by_contra hsame
  have hdup : t.hasDuplicate l e = true :=
    (t.hasDuplicate_iff l e).2 ⟨l', hne, hinit, Bool.eq_true_of_not_eq_false hsame⟩
  exact absurd (h.symm.trans hdup) (by decide)

/-- Storing an entry at its place leaves every entry placed. -/
theorem placed_set {t : Tlb} (ht : t.Placed) {l : Loc} {e : TlbEntry} (hplace : l.entry = Config.tlbIndex e.la) :
    (t.set l e).Placed := by
  intro l' h
  rw [Tlb.get_set] at h ⊢
  split at h
  · subst l'
    rw [if_pos rfl]
    exact hplace
  · rw [if_neg ‹_›]
    exact ht l' h

/-- Storing an assigned entry at its place, where its tag is no duplicate, leaves the array well kept. -/
theorem WellKept.set {t : Tlb} (ht : WellKept t) {l : Loc} {e : TlbEntry} (hinit : e.init = true)
    (hplace : l.entry = Config.tlbIndex e.la) (hdup : t.hasDuplicate l e = false) : WellKept (t.set l e) where
  unassignedInvalid l' h := by
    rw [Tlb.get_set] at h ⊢
    split at h
    · exact absurd (hinit.symm.trans h) (by decide)
    · rw [if_neg ‹_›]
      exact ht.unassignedInvalid l' h
  placed := placed_set ht.placed hplace
  validTagsDiffer l1 l2 hne h1 h2 hv := by
    by_cases hl1 : l1 = l
    · subst l1
      rw [Tlb.get_set_ne _ _ (Ne.symm hne)] at h2 ⊢
      rw [Tlb.get_set_self, sameTag_comm]
      exact sameTag_eq_false_of_no_duplicate hdup (Ne.symm hne) h2
    · rw [Tlb.get_set_ne _ _ hl1] at h1 hv ⊢
      by_cases hl2 : l2 = l
      · subst l2
        rw [Tlb.get_set_self]
        exact sameTag_eq_false_of_no_duplicate hdup hl1 h1
      · rw [Tlb.get_set_ne _ _ hl2] at h2 ⊢
        exact ht.validTagsDiffer l1 l2 hne h1 h2 hv

/-- Clearing the valid bits keeps every entry assigned and placed as it was, and leaves no valid one. -/
theorem WellKept.clearValid {t : Tlb} (ht : WellKept t) : WellKept t.clearValid where
  unassignedInvalid l _ := by rw [Tlb.get_clearValid]; rfl
  placed l h := by
    rw [Tlb.get_clearValid] at h ⊢
    exact ht.placed l h
  validTagsDiffer l l' _ _ _ hv := by
    rw [Tlb.get_clearValid] at hv
    have hzero : (0 : Bit) = 1 := hv
    exact absurd hzero (by decide)

/-- A TLB write stores an assigned entry at its place. -/
theorem wellKept_of_tlbWrite {s u : State} (ht : WellKept s.tlb) (h : tlbWrite s = .ok u) : WellKept u.tlb := by
  obtain ⟨-, hdup, rfl⟩ := tlbWrite_ok h
  exact ht.set rfl rfl hdup

/-! The reserved positions of TR6 and TR7. -/

/-- Replacing a field above the reserved positions of TR6 leaves these as they are. -/
theorem tr6Writable_setField {v : Word} (hv : tr6Writable v = true) {lo w : Nat} (x : BitVec w) (hlo : 5 ≤ lo)
    (hw : lo + w ≤ 32) : tr6Writable (setField v lo x) = true := by
  rw [tr6Writable_iff] at hv ⊢
  intro b hb
  rw [setField_getLsbD _ _ _ hw, if_neg (by omega)]
  exact hv b hb

/-- A hit sets fields of TR6 above the reserved positions. -/
theorem tr6Writable_fromEntry {v : Word} (hv : tr6Writable v = true) (e : TlbEntry) :
    tr6Writable (tr6FromEntry v e) = true := by
  unfold tr6FromEntry
  repeat refine tr6Writable_setField ?_ _ (by omega) (by omega)
  exact hv

/-- A lookup leaves the reserved positions of TR7. -/
theorem tr7Writable_withResult (v : Word) (pa : Page) (ht : Bit) (rep : BitVec 2) :
    tr7Writable (tr7WithResult v pa ht rep) = tr7Writable v := by
  rw [tr7Writable, tr7Writable, tr7ReservedHigh_withResult, tr7ReservedLow_withResult]

theorem reservedClear_tlbLookup {s : State} (h : s.ReservedClear) : (tlbLookup s).ReservedClear := by
  obtain ⟨h6, h7⟩ := h
  unfold tlbLookup
  split
  case h_1 => exact ⟨tr6Writable_fromEntry h6 _, (tr7Writable_withResult _ _ _ _).trans h7⟩
  case h_2 => exact ⟨tr6Writable_setField h6 _ (by omega) (by omega), (tr7Writable_withResult _ _ _ _).trans h7⟩
  case h_3 => exact ⟨tr6Writable_setField h6 _ (by omega) (by omega), (tr7Writable_withResult _ _ _ _).trans h7⟩

/-! The effects and the step. -/

/-- The invariant does not speak of the flags, pc and the free values. -/
theorem inv_completion {u : State} (h : u.Inv) (a : Word) : (u.drawFlags.setPc a).Inv :=
  ⟨h.progWf, h.unassignedInvalid, h.placed, h.validTagsDiffer, h.reservedClear⟩

/-- An effect that keeps the TLB and the test registers in order keeps the invariant, since none changes the program. -/
theorem inv_of_effect {i : Instr} {s u : State} (h : s.Inv) (he : effect i s = .ok u) (htlb : WellKept u.tlb)
    (hres : u.ReservedClear) : u.Inv := by
  obtain ⟨-, -, -, hprog, -⟩ := effect_frame he
  exact ⟨hprog ▸ h.progWf, htlb.unassignedInvalid, htlb.placed, htlb.validTagsDiffer, hres⟩

/-- A command from a state in order leaves one. -/
theorem tlbCommand_keeps {s u : State} (ht : WellKept s.tlb) (hr : s.ReservedClear) (h : tlbCommand s = .ok u) :
    WellKept u.tlb ∧ u.ReservedClear := by
  obtain ⟨-, hw⟩ | ⟨-, rfl⟩ := tlbCommand_ok h
  · refine ⟨wellKept_of_tlbWrite ht hw, ?_⟩
    obtain ⟨-, -, rfl⟩ := tlbWrite_ok hw
    exact hr
  · obtain ⟨-, -, -, -, -, htlb, -⟩ := tlbLookup_frame s
    exact ⟨htlb ▸ ht, reservedClear_tlbLookup hr⟩

/-- Each effect from a state with the invariant leaves one. -/
theorem effect_keeps_inv {i : Instr} {s u : State} (h : s.Inv) (he : effect i s = .ok u) : u.Inv := by
  have htlb := wellKept_of_inv h
  obtain ⟨h6, h7⟩ := h.reservedClear
  have hdone := inv_of_effect h he
  cases i with
  | movR32Tr6 k => cases he; exact hdone htlb ⟨h6, h7⟩
  | movR32Tr7 k => cases he; exact hdone htlb ⟨h6, h7⟩
  | movTr6R32 k =>
    rw [effect] at he
    split_ifs at he with hw
    obtain ⟨htlb', hres'⟩ := tlbCommand_keeps (s := s.setTr6 (s.regs.get k)) htlb ⟨hw, h7⟩ he
    exact hdone htlb' hres'
  | movTr7R32 k =>
    rw [effect] at he
    split_ifs at he with hw
    cases he
    exact hdone htlb ⟨h6, hw⟩
  | movCr3R32 k =>
    rw [effect] at he
    split_ifs at he
    cases he
    exact hdone htlb.clearValid ⟨h6, h7⟩

/-- Settles O46: the effect of the instruction keeps the invariant, and so does its completion. -/
theorem stepKeepsTheInv : Obligations.StepKeepsTheInv := by
  intro s t h hst
  obtain ⟨i, hi⟩ := step_next_exec hst
  obtain ⟨-, u, hu, rfl⟩ := exec_next hi
  exact inv_completion (effect_keeps_inv h hu) _

/-- Settles O45: no entry is assigned, and the reserved positions were masked off. -/
theorem resetHasTheInv : Obligations.ResetHasTheInv where
  progWf := State.reset_prog_wf
  unassignedInvalid := wellKept_reset.unassignedInvalid
  placed := wellKept_reset.placed
  validTagsDiffer := wellKept_reset.validTagsDiffer
  reservedClear := by
    obtain ⟨h6, h7⟩ := resetLeavesTestRegistersFree
    exact ⟨(tr6Writable_iff _).2 fun b hb => by rw [h6]; simp [hb], (tr7Writable_iff _).2 fun b hb => by rw [h7]; simp [hb]⟩

end Sys2Proof.Proofs.Invariant
end

section
/-! The TLB write command, the write to CR3, and which instruction changes what (41_tlb_test_operations.md R60 to R66, R72,
R75, R77, 10_state.md R25). -/

namespace Sys2Proof.Proofs.TlbWrite

open Sys2Proof Sys2Proof.Machine Sys2Proof.Proofs.InstrEffect Sys2Proof.Proofs.TlbCommand Sys2Proof.Proofs.Invariant

/-! `MOV TR6,r32` after its checks. -/

theorem effect_movTr6R32 {k : Reg32} {s : State} (hw : tr6Writable (s.regs.get k) = true) (hpg : s.pg = false) :
    effect (.movTr6R32 k) s = tlbCommand (s.setTr6 (s.regs.get k)) := by
  rw [effect, if_pos hw, hpg]
  rfl

/-- A refusal of the command is the instruction's. -/
theorem exec_movTr6R32_of_command_error {k : Reg32} {s : State} {r : Refusal} (hpriv : s.mode.privileged = true)
    (hpg : s.pg = false) (hw : tr6Writable (s.regs.get k) = true)
    (h : tlbCommand (s.setTr6 (s.regs.get k)) = .error r) : exec (.movTr6R32 k) s = .refused r :=
  exec_of_effect_error hpriv ((effect_movTr6R32 hw hpg).trans h)

/-- What the command leaves in the TLB: the write stores one entry, the lookup none. -/
theorem movTr6R32_tlb {k : Reg32} {s t : State} (h : exec (.movTr6R32 k) s = .next t) :
    (tr6C (s.regs.get k) = 0 ∧
      t.tlb = s.tlb.set (writeLoc (s.regs.get k) s.tr7) (s.setTr6 (s.regs.get k)).newEntry) ∨
    (tr6C (s.regs.get k) = 1 ∧ t.tlb = s.tlb) := by
  obtain ⟨-, -, -, -, u, hu, rfl⟩ := execMovTr6R32_next h
  obtain ⟨hc, hw⟩ | ⟨hc, rfl⟩ := tlbCommand_ok hu
  · obtain ⟨-, -, rfl⟩ := tlbWrite_ok hw
    exact .inl ⟨hc, rfl⟩
  · obtain ⟨-, -, -, -, -, htlb, -⟩ := tlbLookup_frame (s.setTr6 (s.regs.get k))
    exact .inr ⟨hc, htlb⟩

/-! Refusals. -/

/-- Settles O23: PG is looked at after the reserved positions, and before the command. -/
theorem pagingOnIsRefused : Obligations.PagingOnIsRefused := by
  intro k s hpriv hpg
  refine ⟨fun hres => exec_of_effect_error hpriv ?_, exec_of_effect_error hpriv (if_pos hpg)⟩
  have hw : tr6Writable (s.regs.get k) = true := beq_iff_eq.2 hres
  rw [effect, if_pos hw, if_pos hpg]

/-- Settles O28: the command is a TLB write, which asks for HT = 1 first. -/
theorem writeWithHtZeroIsRefused : Obligations.WriteWithHtZeroIsRefused := by
  intro k s hpriv hpg hres hc hht
  exact exec_movTr6R32_of_command_error hpriv hpg (beq_iff_eq.2 hres) ((tlbCommand_write hc).trans (tlbWrite_ht0 hht))

/-! Table 10-1 (R64) and the entry a TLB write stores (R63, R75). -/

/-- An undefined pair stands for the free value, and a defined one for its first bit. -/
theorem pairValue_eq_ite (x xn f : Bit) : pairValue x xn f = if x = xn then f else x := by
  by_cases h : x = xn
  · rw [if_pos h, pairValue, if_neg fun hd => (pairDefined_iff x xn).1 hd h]
  · rw [if_neg h, pairValue_defined ((pairDefined_iff x xn).2 h)]

/-- The entry a TLB write stores, with the free values at the next three places of the run. -/
theorem newEntry_eq (s : State) : s.newEntry =
    { init := true, la := tr6La s.tr6, v := tr6V s.tr6
      d := if tr6D s.tr6 = tr6Dn s.tr6 then Config.draw 1 s.draws else tr6D s.tr6
      u := if tr6U s.tr6 = tr6Un s.tr6 then Config.draw 1 (s.draws + 1) else tr6U s.tr6
      w := if tr6W s.tr6 = tr6Wn s.tr6 then Config.draw 1 (s.draws + 2) else tr6W s.tr6
      pa := tr7Pa s.tr7 } := by
  rw [State.newEntry, pairValue_eq_ite, pairValue_eq_ite, pairValue_eq_ite]
  rfl

/-- Settles O25: the entry stored takes the pairs' values, and a lookup with defined pairs asks for them. -/
theorem bitPairsFollowTheTable : Obligations.BitPairsFollowTheTable := by
  refine ⟨fun x xn f => ⟨pairDefined_iff x xn, fun h => ?defined, fun h => ?undefined⟩, fun s t h => ?write,
    fun e v f h => ?lookup⟩
  case defined => rw [pairValue_eq_ite, if_neg h]
  case undefined => rw [pairValue_eq_ite, if_pos h]
  case write =>
    obtain ⟨-, -, rfl⟩ := tlbWrite_ok h
    rw [State.useDraws_tlb, State.setTlb_tlb, Tlb.get_set_self]
    exact ⟨rfl, rfl, rfl⟩
  case lookup =>
    obtain ⟨hd, hu, hw⟩ := (pairsDefined_iff v).1 h
    rw [pairValue_defined hd, pairValue_defined hu, pairValue_defined hw]
    exact e.matchesTag_iff v

/-! When a TLB write completes, and what it leaves. -/

/-- The tag that a TLB write compares is the tag of the entry it stores. -/
theorem hasDuplicate_newEntry_iff (s : State) (l : Loc) : s.tlb.hasDuplicate l s.newEntry = true ↔
    ∃ l', l' ≠ l ∧ (s.tlb.get l').init = true ∧ (s.tlb.get l').la = tr6La s.tr6 ∧ (s.tlb.get l').v = tr6V s.tr6 ∧
      (s.tlb.get l').d = (if tr6D s.tr6 = tr6Dn s.tr6 then Config.draw 1 s.draws else tr6D s.tr6) ∧
      (s.tlb.get l').u = (if tr6U s.tr6 = tr6Un s.tr6 then Config.draw 1 (s.draws + 1) else tr6U s.tr6) ∧
      (s.tlb.get l').w = (if tr6W s.tr6 = tr6Wn s.tr6 then Config.draw 1 (s.draws + 2) else tr6W s.tr6) := by
  simp only [Tlb.hasDuplicate_iff, TlbEntry.sameTag_iff, newEntry_eq]

/-- Where the tag is no duplicate, a TLB write completes with one entry stored. -/
theorem exec_write {k : Reg32} {s : State} (hc : CanCommand k s) (hbit : tr6C (s.regs.get k) = 0)
    (hht : tr7Ht s.tr7 = 1)
    (hdup : s.tlb.hasDuplicate (writeLoc (s.regs.get k) s.tr7) (s.setTr6 (s.regs.get k)).newEntry = false) :
    exec (.movTr6R32 k) s = .next (((((s.setTr6 (s.regs.get k)).setTlb (s.tlb.set (writeLoc (s.regs.get k) s.tr7)
      (s.setTr6 (s.regs.get k)).newEntry)).useDraws 3).drawFlags).setPc (s.pc + 3)) :=
  exec_movTr6R32_of_command hc ((tlbCommand_write hbit).trans (tlbWrite_eq hht hdup))

/-- Settles O27: the tag compared and the entry stored are those of `newEntry_eq`. -/
theorem undefinedPairWritesFreeBit : Obligations.UndefinedPairWritesFreeBit := by
  intro k s hc v here d u w hbit hht hother
  have hdup : s.tlb.hasDuplicate here (s.setTr6 v).newEntry = false := by
    rw [← Bool.not_eq_true]
    intro h
    obtain ⟨l, hne, htag⟩ := (hasDuplicate_newEntry_iff (s.setTr6 v) here).1 h
    exact hother l hne htag
  refine ⟨_, exec_write hc hbit hht hdup, ?stored, fun l hl => Tlb.get_set_ne _ _ hl, rfl, rfl, fun _ => rfl,
    ⟨rfl, rfl, fun _ => rfl⟩, rfl, rfl, rfl⟩
  exact (Tlb.get_set_self s.tlb here (s.setTr6 v).newEntry).trans (newEntry_eq (s.setTr6 v))

/-- Settles O26: with defined pairs no attribute bit is free. -/
theorem tlbWriteSetsOneEntry : Obligations.TlbWriteSetsOneEntry := by
  intro k s hc v here hbit hht hpairs hother
  obtain ⟨hd, hu, hw⟩ := (pairsDefined_iff (s.regs.get k)).1 hpairs
  have hwrite := undefinedPairWritesFreeBit k s hc hbit hht
  simp only [if_neg ((pairDefined_iff _ _).1 hd), if_neg ((pairDefined_iff _ _).1 hu),
    if_neg ((pairDefined_iff _ _).1 hw)] at hwrite
  exact hwrite hother

/-- Settles O29: the write is refused for a duplicate, and completes without one. -/
theorem duplicateTagIsRefused : Obligations.DuplicateTagIsRefused := by
  intro k s hc v here d u w hbit hht
  refine Iff.trans ?_ (hasDuplicate_newEntry_iff (s.setTr6 v) here)
  constructor
  · intro hrefused
    by_contra hdup
    rw [exec_write hc hbit hht (Bool.eq_false_iff.2 hdup)] at hrefused
    cases hrefused
  · intro hdup
    obtain ⟨⟨hpriv, -⟩, hpg, hwritable⟩ := hc
    exact exec_movTr6R32_of_command_error hpriv hpg hwritable
      ((tlbCommand_write hbit).trans (tlbWrite_duplicate hht hdup))

/-- A command leaves every entry placed. -/
theorem placed_movTr6R32 {k : Reg32} {s t : State} (h : exec (.movTr6R32 k) s = .next t) (hp : s.tlb.Placed) :
    t.tlb.Placed := by
  obtain ⟨-, htlb⟩ | ⟨-, htlb⟩ := movTr6R32_tlb h
  · rw [htlb]
    exact placed_set hp rfl
  · rw [htlb]
    exact hp

/-- Settles O30: the location a write sets lies in the block of REP and at the entry of the linear address. -/
theorem writeStaysInItsBlock : Obligations.WriteStaysInItsBlock := by
  intro k s t h
  constructor
  · intro l hblock
    obtain ⟨-, htlb⟩ | ⟨-, htlb⟩ := movTr6R32_tlb h
    · rw [htlb]
      refine Tlb.get_set_ne _ _ fun hl => hblock ?_
      rw [hl]
      rfl
    · rw [htlb]
  · intro hp l l' hinit hinit' hla
    have hplaced := placed_movTr6R32 h hp
    rw [hplaced l hinit, hplaced l' hinit', hla]

/-! The write to CR3 (R72). -/

/-- Settles O38: the effect replaces the TLB by the cleared one. -/
theorem movCr3ClearsEveryValidBit : Obligations.MovCr3ClearsEveryValidBit := by
  intro k s hrun hpg
  have he : effect (.movCr3R32 k) s = .ok (s.setTlb s.tlb.clearValid) := by
    rw [effect, hpg]
    rfl
  refine ⟨_, exec_of_effect hrun he, fun l => ?cleared, fun _ => rfl, rfl, rfl, sameFixed_of_effect he _, rfl, rfl, rfl⟩
  rw [State.setPc_tlb, State.drawFlags_tlb, State.setTlb_tlb, Tlb.get_clearValid]
  exact ⟨rfl, rfl, rfl, rfl, rfl, rfl, rfl⟩

/-! Which instruction changes what (10_state.md R25). -/

/-- Only the register written can change. -/
theorem eq_of_get_set_ne {r : Regs} {k j : Reg32} {x : Word} (h : (r.set k x).get j ≠ r.get j) : j = k := by
  by_contra hne
  exact h (Regs.get_set_ne r x hne)

/-- Only the entry stored can change. -/
theorem eq_of_tlb_get_set_ne {t : Tlb} {l l' : Loc} {e : TlbEntry} (h : (t.set l e).get l' ≠ t.get l') : l' = l := by
  by_contra hne
  exact h (Tlb.get_set_ne t e hne)

/-- Settles O16: what each instruction's next state shares with the state before it. -/
theorem onlyTheWritersChangeState : Obligations.OnlyTheWritersChangeState := by
  intro i s t h
  cases i with
  | movR32Tr6 k =>
    obtain ⟨-, -, rfl⟩ := execMovR32Tr6_next h
    exact ⟨fun j hj => .inl (by rw [eq_of_get_set_ne hj]), absurd rfl, absurd rfl, fun l => absurd rfl⟩
  | movR32Tr7 k =>
    obtain ⟨-, -, rfl⟩ := execMovR32Tr7_next h
    exact ⟨fun j hj => .inr (by rw [eq_of_get_set_ne hj]), absurd rfl, absurd rfl, fun l => absurd rfl⟩
  | movTr6R32 k =>
    obtain ⟨-, -, -, -, u, hu, rfl⟩ := execMovTr6R32_next h
    obtain ⟨hregs, -⟩ := tlbCommand_frame hu
    refine ⟨fun j => absurd (congrArg (Regs.get · j) hregs), fun _ => ⟨k, rfl⟩, fun h7 => ?tr7, fun l hl => ?tlb⟩
    case tr7 =>
      obtain ⟨-, hw⟩ | ⟨hc, -⟩ := tlbCommand_ok hu
      · obtain ⟨-, -, rfl⟩ := tlbWrite_ok hw
        exact absurd rfl h7
      · exact .inr ⟨k, rfl, hc⟩
    case tlb =>
      obtain ⟨hc, htlb⟩ | ⟨-, htlb⟩ := movTr6R32_tlb h
      · rw [htlb] at hl
        exact .inr ⟨k, rfl, hc, eq_of_tlb_get_set_ne hl⟩
      · rw [htlb] at hl
        exact absurd rfl hl
  | movTr7R32 k =>
    obtain ⟨-, -, -, rfl⟩ := execMovTr7R32_next h
    exact ⟨fun j => absurd rfl, absurd rfl, fun _ => .inl ⟨k, rfl⟩, fun l => absurd rfl⟩
  | movCr3R32 k =>
    obtain ⟨-, -, -, rfl⟩ := execMovCr3R32_next (k := k) h
    exact ⟨fun j => absurd rfl, absurd rfl, absurd rfl, fun _ _ => .inl ⟨k, rfl⟩⟩

end Sys2Proof.Proofs.TlbWrite
end

section
/-! The TLB lookup command: a hit, a miss and an unpredictable lookup, and what every lookup leaves
(41_tlb_test_operations.md R67 to R76). -/

namespace Sys2Proof.Proofs.TlbLookup

open Sys2Proof Sys2Proof.Machine Sys2Proof.Proofs.InstrEffect Sys2Proof.Proofs.TlbCommand Sys2Proof.Proofs.TlbWrite

/-! The three kinds of lookup. -/

theorem tlbLookup_of_hit {s : State} {l : Loc} (h : s.tlb.lookup s.tr6 = .hit l) : tlbLookup s = lookupHit s l := by
  rw [tlbLookup, h]

theorem tlbLookup_of_miss {s : State} (h : s.tlb.lookup s.tr6 = .miss) : tlbLookup s = lookupMiss s := by
  rw [tlbLookup, h]

theorem tlbLookup_of_any {s : State} (h : s.tlb.lookup s.tr6 = .any) : tlbLookup s = lookupAny s := by
  rw [tlbLookup, h]

/-- A lookup that may be performed completes with the state it leaves. -/
theorem exec_lookup {k : Reg32} {s : State} (hc : CanCommand k s) (hbit : tr6C (s.regs.get k) = 1) :
    exec (.movTr6R32 k) s = .next ((tlbLookup (s.setTr6 (s.regs.get k))).drawFlags.setPc (s.pc + 3)) :=
  exec_movTr6R32_of_command hc (tlbCommand_lookup hbit)

/-- A lookup that answers was allowed. -/
theorem canCommand_of_next {k : Reg32} {s t : State} (h : exec (.movTr6R32 k) s = .next t) : CanCommand k s := by
  obtain ⟨hpriv, hw, hpg, hroom, -⟩ := execMovTr6R32_next h
  exact ⟨⟨hpriv, hroom⟩, hpg, hw⟩

/-! TR6 bits 11:5. -/

/-- TR6 with free values in bits 11:5, bit by bit. -/
theorem setField_five_seven_getLsbD (v : Word) (x : BitVec 7) (b : Nat) :
    (setField v 5 x).getLsbD b = if 5 ≤ b ∧ b ≤ 11 then x.getLsbD (b - 5) else v.getLsbD b := by
  rw [setField_getLsbD _ _ _ (by omega)]
  by_cases hb : 5 ≤ b ∧ b ≤ 11
  · rw [if_pos (by omega), if_pos hb]
  · rw [if_neg (by omega), if_neg hb]

/-- A hit leaves TR6 outside bits 11:5. -/
theorem tr6FromEntry_getLsbD_outside (v : Word) (e : TlbEntry) {b : Nat} (hb : b < 5 ∨ 11 < b) :
    (tr6FromEntry v e).getLsbD b = v.getLsbD b := by
  unfold tr6FromEntry
  iterate 7 rw [setField_getLsbD _ _ _ (by omega), if_neg (by omega)]

/-- What every lookup leaves of TR6 and TR7, and how many free values it uses. -/
theorem tlbLookup_keeps (s : State) : tr7ReservedHigh (tlbLookup s).tr7 = tr7ReservedHigh s.tr7 ∧
    tr7ReservedLow (tlbLookup s).tr7 = tr7ReservedLow s.tr7 ∧
    (∀ b, b < 5 ∨ 11 < b → (tlbLookup s).tr6.getLsbD b = s.tr6.getLsbD b) ∧
    ∃ n, n ≤ 4 ∧ (tlbLookup s).draws = s.draws + n := by
  have hfree : ∀ (x : BitVec 7) b, b < 5 ∨ 11 < b → (setField s.tr6 5 x).getLsbD b = s.tr6.getLsbD b := by
    intro x b hb
    rw [setField_five_seven_getLsbD, if_neg (by omega)]
  rcases hr : s.tlb.lookup s.tr6 with l | _ | _
  case hit =>
    rw [tlbLookup_of_hit hr]
    exact ⟨tr7ReservedHigh_withResult _ _ _ _, tr7ReservedLow_withResult _ _ _ _,
      fun b hb => tr6FromEntry_getLsbD_outside _ _ hb, 0, by omega, rfl⟩
  case miss =>
    rw [tlbLookup_of_miss hr]
    exact ⟨tr7ReservedHigh_withResult _ _ _ _, tr7ReservedLow_withResult _ _ _ _, hfree _, 3, by omega, rfl⟩
  case any =>
    rw [tlbLookup_of_any hr]
    exact ⟨tr7ReservedHigh_withResult _ _ _ _, tr7ReservedLow_withResult _ _ _ _, hfree _, 4, by omega, rfl⟩

/-- Settles O33: the lookup that ran keeps all this, and the completion changes only the flags and pc. -/
theorem lookupLeavesTheRest : Obligations.LookupLeavesTheRest := by
  intro k s t hbit h
  rw [exec_lookup (canCommand_of_next h) hbit] at h
  cases h
  obtain ⟨hregs, -, -, hmode, hpg, htlb, hprog⟩ := tlbLookup_frame (s.setTr6 (s.regs.get k))
  obtain ⟨hhigh, hlow, hbits, n, hn, hdraws⟩ := tlbLookup_keeps (s.setTr6 (s.regs.get k))
  exact ⟨fun l => congrArg (Tlb.get · l) htlb, fun j => congrArg (Regs.get · j) hregs,
    ⟨hmode, hpg, fun a => congrArg (Memory.read · a) hprog⟩, hhigh, hlow, hbits, n, hn, congrArg Flags.drawn hdraws,
    congrArg (· + 6) hdraws, rfl⟩

/-! A hit (R68). -/

/-- The REP value of a block is its number. -/
theorem blockRep_toNat (b : Fin 4) : (blockRep b).toNat = b.val := Nat.mod_eq_of_lt b.isLt

/-- After a hit TR7 reports the entry, and TR6 holds the value moved in. -/
theorem exec_lookup_hit {k : Reg32} {s : State} {l : Loc} (hc : CanCommand k s) (hbit : tr6C (s.regs.get k) = 1)
    (hord : s.tlb.Ordinary (s.regs.get k)) (hmatch : (s.tlb.get l).matchesTag (s.regs.get k) = true)
    (hunique : ∀ l', (s.tlb.get l').matchesTag (s.regs.get k) = true → l' = l) :
    ∃ t, exec (.movTr6R32 k) s = .next t ∧ tr7Ht t.tr7 = 1 ∧ tr7Pa t.tr7 = (s.tlb.get l).pa ∧
      tr7Rep t.tr7 = blockRep l.block ∧ t.tr6 = s.regs.get k := by
  have hhit := (s.tlb.lookup_hit_iff (s.regs.get k) l).2 ⟨hord, hmatch, hunique⟩
  refine ⟨_, exec_lookup hc hbit, ?_⟩
  rw [tlbLookup_of_hit (s := s.setTr6 (s.regs.get k)) hhit]
  exact ⟨tr7Ht_withResult _ _ _ _, tr7Pa_withResult _ _ _ _, tr7Rep_withResult _ _ _ _,
    tr6FromEntry_of_match hord.1 hmatch⟩

/-- Settles O32: TR6 is the value moved in, whose bits are the entry's and whose pairs are defined. -/
theorem lookupHitReadsTheEntry : Obligations.LookupHitReadsTheEntry := by
  intro k s l hc v e hbit hord hmatch hunique
  obtain ⟨t, ht, hht, hpa, hrep, htr6⟩ := exec_lookup_hit hc hbit hord hmatch hunique
  obtain ⟨-, -, hv, hd, hu, hw⟩ := (e.matchesTag_iff v).1 hmatch
  obtain ⟨pd, pu, pw⟩ := (pairsDefined_iff v).1 hord.1
  refine ⟨t, ht, hht, hpa, by rw [hrep, blockRep_toNat], ?_⟩
  rw [htr6, hv, hd, hu, hw]
  exact ⟨rfl, rfl, pairDefined_compl pd, rfl, pairDefined_compl pu, rfl, pairDefined_compl pw, rfl⟩

/-! A miss (R70). -/

/-- Settles O34: the free values stand at the next three places of the run. -/
theorem lookupMissClearsHt : Obligations.LookupMissClearsHt := by
  intro k s hc v hbit hord hnone
  have hmiss := (s.tlb.lookup_miss_iff v).2 ⟨hord, hnone⟩
  have hexec := exec_lookup hc hbit
  rw [tlbLookup_of_miss (s := s.setTr6 v) hmiss] at hexec
  obtain ⟨htlb, hregs, hfixed, hhigh, hlow, -⟩ := lookupLeavesTheRest k s _ hbit hexec
  exact ⟨_, hexec, tr7Ht_withResult _ _ _ _, tr7Pa_withResult _ _ _ _, tr7Rep_withResult _ _ _ _, hhigh, hlow,
    setField_five_seven_getLsbD _ _, htlb, hregs, hfixed, rfl, rfl, rfl⟩

/-! An unpredictable lookup (R69, R73, R74). -/

/-- Equal bits are an undefined pair, and a lookup with one is not ordinary. -/
theorem not_ordinary_of_undefined_pair {t : Tlb} {v : Word}
    (h : tr6D v = tr6Dn v ∨ tr6U v = tr6Un v ∨ tr6W v = tr6Wn v) : ¬ t.Ordinary v := by
  rintro ⟨hpairs, -⟩
  obtain ⟨hd, hu, hw⟩ := (pairsDefined_iff v).1 hpairs
  rcases h with h | h | h
  · exact (pairDefined_iff _ _).1 hd h
  · exact (pairDefined_iff _ _).1 hu h
  · exact (pairDefined_iff _ _).1 hw h

/-- A lookup with V = 0 is not ordinary while an entry is uninitialised. -/
theorem not_ordinary_of_uninit {t : Tlb} {v : Word} (hv : tr6V v = 0) {l : Loc} (hl : (t.get l).init = false) :
    ¬ t.Ordinary v := by
  rintro ⟨-, hall⟩
  exact absurd (hl.symm.trans (hall hv l)) (by decide)

/-- Settles O35: each of the five reasons makes the result of the lookup unpredictable. -/
theorem unpredictableLookupIsFree : Obligations.UnpredictableLookupIsFree := by
  intro k s hc v hbit hwhy
  have hany : s.tlb.lookup v = .any := by
    rw [Tlb.lookup_any_iff]
    rcases hwhy with h | h | h | ⟨hv, l, hl⟩ | htwo
    · exact .inl (not_ordinary_of_undefined_pair (.inl h))
    · exact .inl (not_ordinary_of_undefined_pair (.inr (.inl h)))
    · exact .inl (not_ordinary_of_undefined_pair (.inr (.inr h)))
    · exact .inl (not_ordinary_of_uninit hv hl)
    · exact .inr htwo
  have hexec := exec_lookup hc hbit
  rw [tlbLookup_of_any (s := s.setTr6 v) hany] at hexec
  obtain ⟨htlb, hregs, hfixed, hhigh, hlow, -⟩ := lookupLeavesTheRest k s _ hbit hexec
  exact ⟨_, hexec, tr7Pa_withResult _ _ _ _, tr7Ht_withResult _ _ _ _, tr7Rep_withResult _ _ _ _, hhigh, hlow,
    setField_five_seven_getLsbD _ _, htlb, hregs, hfixed, rfl, rfl, rfl⟩

/-! Lookups with V = 1. -/

/-- With V = 1 and defined pairs a lookup is ordinary, whatever the TLB holds. -/
theorem ordinary_of_valid (t : Tlb) {v : Word} (hpairs : pairsDefined v = true) (hv : tr6V v = 1) : t.Ordinary v :=
  ⟨hpairs, fun h0 => absurd (hv.symm.trans h0) (by decide)⟩

/-- Two entries that match one lookup have the same tag. -/
theorem sameTag_of_matchesTag {e f : TlbEntry} {v : Word} (he : e.matchesTag v = true) (hf : f.matchesTag v = true) :
    e.sameTag f = true := by
  obtain ⟨-, e1, e2, e3, e4, e5⟩ := (e.matchesTag_iff v).1 he
  obtain ⟨-, f1, f2, f3, f4, f5⟩ := (f.matchesTag_iff v).1 hf
  exact (e.sameTag_iff f).2 ⟨e1.trans f1.symm, e2.trans f2.symm, e3.trans f3.symm, e4.trans f4.symm, e5.trans f5.symm⟩

/-- Where valid tags differ, a lookup with V = 1 matches at most one entry. -/
theorem eq_of_matchesTag {t : Tlb} (ht : t.ValidTagsDiffer) {v : Word} (hv : tr6V v = 1) {l l' : Loc}
    (h : (t.get l).matchesTag v = true) (h' : (t.get l').matchesTag v = true) : l' = l := by
  by_contra hne
  obtain ⟨hinit, -, hvalid, -⟩ := (TlbEntry.matchesTag_iff _ v).1 h
  obtain ⟨hinit', -⟩ := (TlbEntry.matchesTag_iff _ v).1 h'
  have hdiffer := ht l l' (Ne.symm hne) hinit hinit' (hvalid.trans hv)
  exact absurd (hdiffer.symm.trans (sameTag_of_matchesTag h h')) (by decide)

/-- Settles O37: under the invariant the lookup is a hit or a miss. -/
theorem validLookupHitsOrMisses : Obligations.ValidLookupHitsOrMisses := by
  intro k s hinv hc v hbit hpairs hv
  have hord := ordinary_of_valid s.tlb hpairs hv
  by_cases hmatch : ∃ l, (s.tlb.get l).matchesTag v = true
  · obtain ⟨l, hl⟩ := hmatch
    obtain ⟨t, ht, hht, -⟩ := exec_lookup_hit hc hbit hord hl fun l' => eq_of_matchesTag hinv.validTagsDiffer hv hl
    exact ⟨t, ht, iff_of_true hht ⟨l, hl⟩⟩
  · obtain ⟨t, ht, hht, -⟩ := lookupMissClearsHt k s hc hbit hord fun l =>
      Bool.eq_false_iff.2 fun hl => hmatch ⟨l, hl⟩
    exact ⟨t, ht, iff_of_false (by rw [hht]; decide) hmatch⟩

/-- Settles O49: an entry that matches has the valid bit asked for. -/
theorem lookupMissesWhileNoEntryIsValid : Obligations.LookupMissesWhileNoEntryIsValid := by
  intro j u hinvalid hc hbit hpairs hv
  have hnone : ∀ l, (u.tlb.get l).matchesTag (u.regs.get j) = false := by
    intro l
    by_contra hl
    obtain ⟨-, -, hvalid, -⟩ := (TlbEntry.matchesTag_iff _ _).1 (Bool.eq_true_of_not_eq_false hl)
    exact absurd ((hinvalid l).symm.trans (hvalid.trans hv)) (by decide)
  obtain ⟨r, hr, hht, -⟩ := lookupMissClearsHt j u hc hbit (ordinary_of_valid u.tlb hpairs hv) hnone
  exact ⟨r, hr, hht⟩

end Sys2Proof.Proofs.TlbLookup
end

section
/-! Laws over several instructions (41_tlb_test_operations.md R78, R79, 70_reset_and_hazards.md R95). -/

namespace Sys2Proof.Proofs.Sequences

open Sys2Proof Sys2Proof.Machine Sys2Proof.Proofs.TlbWrite Sys2Proof.Proofs.TlbLookup

/-! Write, then look up (R78). -/

/-- Setting the command bit, which makes the value of a write that of a lookup for its tag, leaves every field above it. -/
theorem field_or_one (v : Word) {lo : Nat} (w : Nat) (h : 1 ≤ lo) : field (v ||| 1) lo w = field v lo w := by
  refine BitVec.eq_of_getLsbD_eq fun i _ => ?_
  have hone : (1#32).getLsbD (lo + i) = false := by
    rw [BitVec.getLsbD_one]
    exact decide_eq_false (by omega)
  rw [field_getLsbD, field_getLsbD, BitVec.getLsbD_or]
  simp [hone]

theorem tr6C_or_one (v : Word) : tr6C (v ||| 1) = 1 := by
  refine BitVec.eq_of_getLsbD_eq fun i hi => ?_
  obtain rfl : i = 0 := by omega
  rw [tr6C, field_getLsbD, BitVec.getLsbD_or]
  simp

theorem tr6Writable_or_one (v : Word) : tr6Writable (v ||| 1) = tr6Writable v := by
  rw [tr6Writable, tr6Writable, tr6Reserved, tr6Reserved, field_or_one v 4 (by omega)]

theorem tr6V_or_one (v : Word) : tr6V (v ||| 1) = tr6V v := field_or_one v 1 (by omega)

theorem pairsDefined_or_one (v : Word) : pairsDefined (v ||| 1) = pairsDefined v := by
  simp only [pairsDefined, tr6D, tr6Dn, tr6U, tr6Un, tr6W, tr6Wn, field_or_one v _ (show 1 ≤ 10 by omega),
    field_or_one v _ (show 1 ≤ 9 by omega), field_or_one v _ (show 1 ≤ 8 by omega),
    field_or_one v _ (show 1 ≤ 7 by omega), field_or_one v _ (show 1 ≤ 6 by omega),
    field_or_one v _ (show 1 ≤ 5 by omega)]

theorem matchesTag_or_one (e : TlbEntry) (v : Word) : e.matchesTag (v ||| 1) = e.matchesTag v := by
  simp only [TlbEntry.matchesTag, tr6La, tr6V, tr6D, tr6U, tr6W, field_or_one v _ (show 1 ≤ 12 by omega),
    field_or_one v _ (show 1 ≤ 11 by omega), field_or_one v _ (show 1 ≤ 10 by omega),
    field_or_one v _ (show 1 ≤ 8 by omega), field_or_one v _ (show 1 ≤ 6 by omega)]

/-- With defined pairs the entry stored matches a lookup with the value of the write. -/
theorem newEntry_matchesTag {s : State} (h : pairsDefined s.tr6 = true) : s.newEntry.matchesTag s.tr6 = true := by
  obtain ⟨hd, hu, hw⟩ := (pairsDefined_iff s.tr6).1 h
  rw [TlbEntry.matchesTag_iff, State.newEntry, pairValue_defined hd, pairValue_defined hu, pairValue_defined hw]
  exact ⟨rfl, rfl, rfl, rfl, rfl, rfl⟩

/-- After a TLB write only the entry stored matches its value: another would have been a duplicate. -/
theorem eq_writeLoc_of_matchesTag {s : State} (hpairs : pairsDefined s.tr6 = true)
    (hdup : s.tlb.hasDuplicate (writeLoc s.tr6 s.tr7) s.newEntry = false) {l : Loc}
    (h : ((s.tlb.set (writeLoc s.tr6 s.tr7) s.newEntry).get l).matchesTag s.tr6 = true) :
    l = writeLoc s.tr6 s.tr7 := by
  by_contra hne
  rw [Tlb.get_set_ne _ _ hne] at h
  obtain ⟨hinit, -⟩ := (TlbEntry.matchesTag_iff _ _).1 h
  have hdup' := (s.tlb.hasDuplicate_iff _ _).2 ⟨l, hne, hinit, sameTag_of_matchesTag h (newEntry_matchesTag hpairs)⟩
  exact absurd (hdup.symm.trans hdup') (by decide)

/-- The block that a REP value names has that REP value. -/
theorem blockRep_repBlock (r : BitVec 2) : blockRep (repBlock r) = r := BitVec.eq_of_toNat_eq (blockRep_toNat _)

/-- Settles O39: the entry stored is the one match of the lookup. -/
theorem writeThenLookupHits : Obligations.WriteThenLookupHits := by
  intro j k s t u v hbit hpairs hwrite hrun hpg htlb hreg hv
  obtain ⟨-, hw, -, -, r, hr, rfl⟩ := execMovTr6R32_next hwrite
  obtain ⟨-, hdup, rfl⟩ := tlbWrite_ok ((tlbCommand_write hbit).symm.trans hr)
  have hstored : u.tlb = s.tlb.set (writeLoc v s.tr7) (s.setTr6 v).newEntry := htlb
  have hc : CanCommand j u := ⟨hrun, hpg, by rw [hreg, tr6Writable_or_one]; exact hw⟩
  have hord : u.tlb.Ordinary (u.regs.get j) := by
    rw [hreg]
    refine ⟨(pairsDefined_or_one v).trans hpairs, fun h0 => ?_⟩
    rw [tr6V_or_one] at h0
    exact hv.resolve_left fun h1 => absurd (h1.symm.trans h0) (by decide)
  have hmatch : (u.tlb.get (writeLoc v s.tr7)).matchesTag (u.regs.get j) = true := by
    rw [hreg, matchesTag_or_one, hstored, Tlb.get_set_self]
    exact newEntry_matchesTag (s := s.setTr6 v) hpairs
  have hunique : ∀ l, (u.tlb.get l).matchesTag (u.regs.get j) = true → l = writeLoc v s.tr7 := by
    intro l hl
    rw [hreg, matchesTag_or_one, hstored] at hl
    exact eq_writeLoc_of_matchesTag (s := s.setTr6 v) hpairs hdup hl
  obtain ⟨q, hq, hht, hpa, hrep, htr6⟩ := exec_lookup_hit hc (by rw [hreg]; exact tr6C_or_one v) hord hmatch hunique
  refine ⟨q, hq, hht, ?pa, ?rep, ?tr6⟩
  case pa =>
    rw [hpa, hstored, Tlb.get_set_self]
    rfl
  case rep => exact hrep.trans (blockRep_repBlock _)
  case tr6 => rw [htr6, hreg, field_or_one v 7 (by omega)]

/-! A write to CR3, then lookups (R79). -/

/-- Settles O41: an entry that changes is cleared, or stored by a TLB write with the valid bit of the value moved in. -/
theorem noEntryBecomesValidUnwritten : Obligations.NoEntryBecomesValidUnwritten := by
  rintro i s t hinvalid h ⟨l, hl⟩
  have hchanged : t.tlb.get l ≠ s.tlb.get l := by
    intro heq
    rw [heq, hinvalid l] at hl
    exact absurd hl (by decide)
  obtain ⟨-, -, -, htlb⟩ := onlyTheWritersChangeState i s t h
  rcases htlb l hchanged with ⟨k, rfl⟩ | ⟨k, rfl, hc, rfl⟩
  · obtain ⟨-, -, -, rfl⟩ := execMovCr3R32_next (k := k) h
    rw [State.setPc_tlb, State.drawFlags_tlb, State.setTlb_tlb, Tlb.get_clearValid] at hl
    have hzero : (0 : Bit) = 1 := hl
    exact absurd hzero (by decide)
  · obtain ⟨-, htlb⟩ | ⟨hc', -⟩ := movTr6R32_tlb h
    · rw [htlb, Tlb.get_set_self] at hl
      exact ⟨k, rfl, hc, hl⟩
    · exact absurd (hc.symm.trans hc') (by decide)

/-- Without a TLB write with V = 1, a TLB without a valid entry stays so. -/
theorem invalid_of_leadsWithoutValidWrite {is : List Instr} {a b : Tlb} (ha : ∀ l, (a.get l).v = 0)
    (h : LeadsWithoutValidWrite is a b) : ∀ l, (b.get l).v = 0 := by
  induction is generalizing a with
  | nil =>
    obtain rfl : b = a := h
    exact ha
  | cons i is ih =>
    obtain ⟨s, t, rfl, hst, hnot, hrest⟩ := h
    refine ih (fun l => ?_) hrest
    refine (BitVec.eq_zero_or_eq_one _).resolve_right fun hl => ?_
    obtain ⟨k, hk, hc, hv⟩ := noEntryBecomesValidUnwritten i s t ha hst ⟨l, hl⟩
    exact hnot ⟨k, hk, hc, hv⟩

/-- Settles O40: the write to CR3 leaves no valid entry, and none becomes valid until the lookup. -/
theorem lookupAfterCr3Misses : Obligations.LookupAfterCr3Misses := by
  intro j k s t u is hcr3 hleads
  obtain ⟨-, -, -, rfl⟩ := execMovCr3R32_next (k := k) hcr3
  refine lookupMissesWhileNoEntryIsValid j u (invalid_of_leadsWithoutValidWrite (fun l => ?_) hleads)
  rw [State.setPc_tlb, State.drawFlags_tlb, State.setTlb_tlb, Tlb.get_clearValid]
  rfl

/-! A missed lookup, then a TLB write (70_reset_and_hazards.md R95). -/

/-- Settles O42: the miss left HT = 0. -/
theorem writeAfterMissNeedsTr7Reloaded : Obligations.WriteAfterMissNeedsTr7Reloaded := by
  intro j k s t u hmiss hlookup hord hnone htr7 hpriv hpg hw hbit
  obtain ⟨t', ht', hht, -⟩ := lookupMissClearsHt k s (canCommand_of_next hmiss) hlookup hord hnone
  cases hmiss.symm.trans ht'
  refine exec_movTr6R32_of_command_error hpriv hpg hw ((tlbCommand_write hbit).trans (tlbWrite_ht0 ?_))
  rw [State.setTr6_tr7, htr7, hht]

end Sys2Proof.Proofs.Sequences
end
